-- ==== Sys2Proof/Word.lean ====
section
/-! DEFINITION. The widths of the Hanover frame receiver (HFR): bytes, 16-bit and 32-bit unsigned values
(spec/00_scope.md section 5: there are no signed quantities anywhere in HFR). -/

namespace Sys2Proof

/-- An unsigned integer 0 to 255 (00_scope.md section 5). -/
abbrev Byte := BitVec 8

/-- `u16`, the width of the resolution field (00_scope.md section 5). -/
abbrev Half := BitVec 16

/-- `u32`, the width of `CFG.rows`, `CFG.columns` and of the counts (00_scope.md section 5). -/
abbrev Word32 := BitVec 32

end Sys2Proof
end

