-- ==== Sys2Proof/Syntax.lean ====
section
/-! DEFINITION. The operations of HFR: one constructor per row of spec/opcode_table.json, in the table's order, and the
names under which the decoder rejects bytes that are no operation. -/

namespace Sys2Proof

/-- One constructor per row of spec/opcode_table.json. Operands are the fields the row leaves open, then the operands
its rule names. -/
inductive Instr where
  -- byte_class (30_encoding.md R56): a byte of that class arrives at RX
  | stx
  | etx
  | other (b : Byte)
  -- hex_digit (30_encoding.md R57): the class of a byte that should be a digit; `d` is the row's open low bits
  | hex07 (d : BitVec 3)
  | hex89 (d : BitVec 1)
  | hexUpA
  | hexUpBC (d : BitVec 1)
  | hexUpDE (d : BitVec 1)
  | hexUpF
  | hexLoA
  | hexLoBC (d : BitVec 1)
  | hexLoDE (d : BitVec 1)
  | hexLoF
  | notHex (c : Byte)
  -- frame_field (30_encoding.md R50): the bytes of that field arrive at RX
  | frameHeader (cmd addr : Byte) (res : Half)
  | framePayloadPair (h l : Byte)
  | frameTrailer (h l : Byte)
  -- host_strobe, handshake, state_select, port_read (30_encoding.md R62): the seven steps of 43_dispatcher.md
  | init (rows columns : Word32) (address : Byte)
  | snapshot
  | rxByte (b : Byte)
  | enq
  | applyQ
  | snapRd (r c : Word32)
  | rdCount
  -- event_code (30_encoding.md R61): an event with that code is emitted
  | evtOk (resWarn : Bool)
  | evtTooShort
  | evtInvalidFraming
  | evtChecksumMismatch
  | evtNotAddressedToUs
  -- function: the pure functions and the reference machine
  | feedFn (chunk : List Byte)
  | stepFn (b : Byte)
  | hexvalFn (c : Byte)
  | hexpairFn (c0 c1 : Byte)
  | cksumFn (f : List Byte)
  | decodeFn (f : List Byte)
  | applyFn (payload : List Byte)
  | snapshotFn
  | dispatchFn (chunk : List Byte)
deriving DecidableEq, Repr

/-- The formats of spec/opcode_table.json, each a decoder of its own; a function row is a format by itself. -/
inductive Format where
  /-- byte_class (30_encoding.md R56). -/
  | byteClass
  /-- hex_digit (R57). -/
  | hexDigit
  /-- frame_field, header (R50). -/
  | header
  /-- frame_field, payload pair (R54). -/
  | pair
  /-- frame_field, trailer (R55). -/
  | trailer
  /-- host_strobe (R62). -/
  | hostStrobe
  /-- handshake (R62). -/
  | handshake
  /-- state_select of RX (R62). -/
  | rxSelect
  /-- state_select of WR (R62). -/
  | wrSelect
  /-- port_read, SNAPRD (R60). -/
  | snapRd
  /-- port_read, RDCOUNT (R60). -/
  | rdCount
  /-- event_code (R61). -/
  | event
  | feed
  | step
  | hexval
  | hexpair
  | cksum
  | decode
  | apply
  | snapshot
  | dispatch
deriving DecidableEq, Repr

/-- Why the decoder rejects bytes. -/
inductive DecodeError where
  /-- There is no byte. -/
  | noBytes
  /-- The first byte is no format tag of the model's stimulus encoding (notes/assumptions/4.md). -/
  | unknownFormat (tag : Byte)
  /-- The bytes end inside an operation. -/
  | truncated
  /-- 30_encoding.md R62: the host vector `00` is no request. -/
  | noRequest
  /-- 30_encoding.md R62: the selection vector does not select the step. -/
  | notSelected (vector : Byte)
  /-- 30_encoding.md R50: frame byte 0 is fixed `0x02`, frame byte `N-3` is fixed `0x03`. -/
  | badMarker (b : Byte)
  /-- 30_encoding.md R61: event codes 5 to 7 are never emitted. -/
  | reservedEventCode (code : Byte)
  /-- A one-bit operand is neither 0 nor 1. -/
  | badBit (b : Byte)
deriving DecidableEq, Repr

end Sys2Proof
end

