-- ==== Sys2Proof/WellFormed.lean ====
section
/-! DEFINITION. Which operations are well formed: those whose operands the row of spec/opcode_table.json admits. -/

namespace Sys2Proof

/-- 30_encoding.md R57: the byte matches one of the table's digit patterns (match and mask as the table has them); the
lower-case rows apply only when `HEX_LOWER_OK`. -/
def matchesHexRow (lowerOk : Bool) (c : Byte) : Bool :=
  (c &&& 0xF8#8) == 0x30#8 || (c &&& 0xFE#8) == 0x38#8 ||
  c == 0x41#8 || (c &&& 0xFE#8) == 0x42#8 || (c &&& 0xFE#8) == 0x44#8 || c == 0x46#8 ||
  (lowerOk && (c == 0x61#8 || (c &&& 0xFE#8) == 0x62#8 || (c &&& 0xFE#8) == 0x64#8 || c == 0x66#8))

namespace Instr

/-- The operand lies where its row puts it: `OTHER` is no marker (R56), `NOT_HEX` no digit and a lower-case digit row
only with `HEX_LOWER_OK` (R57), a byte sequence short enough for the stimulus encoding's 32-bit length
(notes/assumptions/4.md). -/
def wellFormed (lowerOk : Bool) : Instr → Bool
  | .other b => b != 0x02#8 && b != 0x03#8
  | .hexLoA => lowerOk
  | .hexLoBC _ => lowerOk
  | .hexLoDE _ => lowerOk
  | .hexLoF => lowerOk
  | .notHex c => !matchesHexRow lowerOk c
  | .feedFn chunk => decide (chunk.length < 2 ^ 32)
  | .cksumFn f => decide (f.length < 2 ^ 32)
  | .decodeFn f => decide (f.length < 2 ^ 32)
  | .applyFn payload => decide (payload.length < 2 ^ 32)
  | .dispatchFn chunk => decide (chunk.length < 2 ^ 32)
  | .stx => true
  | .etx => true
  | .hex07 _ => true
  | .hex89 _ => true
  | .hexUpA => true
  | .hexUpBC _ => true
  | .hexUpDE _ => true
  | .hexUpF => true
  | .frameHeader _ _ _ => true
  | .framePayloadPair _ _ => true
  | .frameTrailer _ _ => true
  | .init _ _ _ => true
  | .snapshot => true
  | .rxByte _ => true
  | .enq => true
  | .applyQ => true
  | .snapRd _ _ => true
  | .rdCount => true
  | .evtOk _ => true
  | .evtTooShort => true
  | .evtInvalidFraming => true
  | .evtChecksumMismatch => true
  | .evtNotAddressedToUs => true
  | .stepFn _ => true
  | .hexvalFn _ => true
  | .hexpairFn _ _ => true
  | .snapshotFn => true

end Instr
end Sys2Proof
end

