-- ==== Sys2Proof/Decode.lean ====
section
/-! DEFINITION. From bits to operations and back. Each format of spec/opcode_table.json has its own decoder, written from
30_encoding.md; the spec gives the formats no common opcode space, so an operation of the script `STIM` starts with a
format tag of the model's own (notes/assumptions/4.md). The encoder follows the decoders. -/

namespace Sys2Proof

/-! ### Byte order (20_memory.md R34: big-endian) -/

/-- Byte `i` of a value, counted from the least significant. -/
def byteOf {w : Nat} (i : Nat) (v : BitVec w) : Byte := (v >>> (8 * i)).setWidth 8

/-- 30_encoding.md R53: `zext_16(hi) * 256 + zext_16(lo)`. -/
def halfOf (hi lo : Byte) : Half := hi.setWidth 16 * 256#16 + lo.setWidth 16

/-- Four bytes, most significant first. -/
def wordOf (b3 b2 b1 b0 : Byte) : Word32 :=
  BitVec.ofNat 32 (b3.toNat * 16777216 + b2.toNat * 65536 + b1.toNat * 256 + b0.toNat)

/-- A `u16` as it stands on the wire. -/
def halfBytes (v : Half) : List Byte := [byteOf 1 v, byteOf 0 v]

/-- A `u32`, most significant byte first. -/
def wordBytes (v : Word32) : List Byte := [byteOf 3 v, byteOf 2 v, byteOf 1 v, byteOf 0 v]

/-- A one-bit operand as a byte. -/
def bitByte (b : Bool) : Byte := if b then 1#8 else 0#8

/-! ### The formats of the opcode table -/

/-- 30_encoding.md R56: the class of a stream byte, by value alone. -/
def decodeByteClass (b : Byte) : Instr :=
  if b = 0x02#8 then .stx else if b = 0x03#8 then .etx else .other b

/-- 30_encoding.md R57: the digit class of a byte, by the table's match and mask; the lower-case rows apply only when
`HEX_LOWER_OK`; the default is `NOT_HEX`. -/
def decodeHexDigit (lowerOk : Bool) (c : Byte) : Instr :=
  if c &&& 0xF8#8 = 0x30#8 then .hex07 (c.setWidth 3)
  else if c &&& 0xFE#8 = 0x38#8 then .hex89 (c.setWidth 1)
  else if c = 0x41#8 then .hexUpA
  else if c &&& 0xFE#8 = 0x42#8 then .hexUpBC (c.setWidth 1)
  else if c &&& 0xFE#8 = 0x44#8 then .hexUpDE (c.setWidth 1)
  else if c = 0x46#8 then .hexUpF
  else if lowerOk && c == 0x61#8 then .hexLoA
  else if lowerOk && c &&& 0xFE#8 == 0x62#8 then .hexLoBC (c.setWidth 1)
  else if lowerOk && c &&& 0xFE#8 == 0x64#8 then .hexLoDE (c.setWidth 1)
  else if lowerOk && c == 0x66#8 then .hexLoF
  else .notHex c

/-- 30_encoding.md R61: the outcome whose 3-bit code stands on `evt_code`; 5 to 7 are never emitted. `evt_res_warn`
follows code 0 only, where alone it is meaningful (R60). -/
def decodeEvent : List Byte → Except DecodeError (Instr × List Byte)
  | [] => .error .truncated
  | code :: rest =>
    if code = 0#8 then
      match rest with
      | [] => .error .truncated
      | w :: rest =>
        if w = 0#8 then .ok (.evtOk false, rest) else if w = 1#8 then .ok (.evtOk true, rest) else .error (.badBit w)
    else if code = 1#8 then .ok (.evtTooShort, rest)
    else if code = 2#8 then .ok (.evtInvalidFraming, rest)
    else if code = 3#8 then .ok (.evtChecksumMismatch, rest)
    else if code = 4#8 then .ok (.evtNotAddressedToUs, rest)
    else .error (.reservedEventCode code)

/-- 30_encoding.md R62: the vector `{rst, snap_req}`. INIT is `1x` (`rst` wins), SNAPSHOT `01`, `00` no request. INIT's
operands are the configuration inputs (43_dispatcher.md R100). -/
def decodeHostStrobe : List Byte → Except DecodeError (Instr × List Byte)
  | [] => .error .truncated
  | v :: rest =>
    if v &&& 0xFE#8 = 0x02#8 then
      match rest with
      | r3 :: r2 :: r1 :: r0 :: c3 :: c2 :: c1 :: c0 :: a :: rest =>
        .ok (.init (wordOf r3 r2 r1 r0) (wordOf c3 c2 c1 c0) a, rest)
      | _ => .error .truncated
    else if v = 0x01#8 then .ok (.snapshot, rest)
    else if v = 0x00#8 then .error .noRequest
    else .error (.notSelected v)

/-- 30_encoding.md R62: the vector `{rx_valid, rx_ready}` selects RXBYTE at `11`; the operand is `rx_data`. -/
def decodeHandshake : List Byte → Except DecodeError (Instr × List Byte)
  | v :: b :: rest => if v = 0x03#8 then .ok (.rxByte b, rest) else .error (.notSelected v)
  | _ => .error .truncated

/-- 30_encoding.md R62: the vector `{HANDOVER != NONE, len(Q) = QUEUE_CAP}` selects ENQ at `10`. -/
def decodeRxSelect : List Byte → Except DecodeError (Instr × List Byte)
  | v :: rest => if v = 0x02#8 then .ok (.enq, rest) else .error (.notSelected v)
  | [] => .error .truncated

/-- 30_encoding.md R62: the bit `{len(Q) > 0}` selects APPLYQ at `1`. -/
def decodeWrSelect : List Byte → Except DecodeError (Instr × List Byte)
  | v :: rest => if v = 0x01#8 then .ok (.applyQ, rest) else .error (.notSelected v)
  | [] => .error .truncated

/-- The table's 40-bit header pattern (30_encoding.md R50): start marker, command, address, big-endian resolution. -/
def decodeHeader : List Byte → Except DecodeError (Instr × List Byte)
  | m :: cmd :: addr :: rh :: rl :: rest =>
    if m = 0x02#8 then .ok (.frameHeader cmd addr (halfOf rh rl), rest) else .error (.badMarker m)
  | _ => .error .truncated

/-- The table's 16-bit payload pattern (30_encoding.md R54): two characters, high digit first. -/
def decodePair : List Byte → Except DecodeError (Instr × List Byte)
  | h :: l :: rest => .ok (.framePayloadPair h l, rest)
  | _ => .error .truncated

/-- The table's 24-bit trailer pattern (30_encoding.md R50, R55): end marker, two checksum characters. -/
def decodeTrailer : List Byte → Except DecodeError (Instr × List Byte)
  | m :: h :: l :: rest => if m = 0x03#8 then .ok (.frameTrailer h l, rest) else .error (.badMarker m)
  | _ => .error .truncated

/-- The table's 64-bit SNAPRD pattern: `snap_row`, then `snap_col` (30_encoding.md R60). -/
def decodeSnapRd : List Byte → Except DecodeError (Instr × List Byte)
  | r3 :: r2 :: r1 :: r0 :: c3 :: c2 :: c1 :: c0 :: rest =>
    .ok (.snapRd (wordOf r3 r2 r1 r0) (wordOf c3 c2 c1 c0), rest)
  | _ => .error .truncated

/-- `n` bytes as an operand. -/
def takeBytes (mk : List Byte → Instr) (n : Nat) (bs : List Byte) : Except DecodeError (Instr × List Byte) :=
  if n ≤ bs.length then .ok (mk (bs.take n), bs.drop n) else .error .truncated

/-- A byte-sequence operand: its length as a `u32`, then its bytes (notes/assumptions/4.md). -/
def decodeBytes (mk : List Byte → Instr) : List Byte → Except DecodeError (Instr × List Byte)
  | n3 :: n2 :: n1 :: n0 :: rest => takeBytes mk (wordOf n3 n2 n1 n0).toNat rest
  | _ => .error .truncated

/-- A one-byte operand. -/
def decodeByte1 (mk : Byte → Instr) : List Byte → Except DecodeError (Instr × List Byte)
  | b :: rest => .ok (mk b, rest)
  | [] => .error .truncated

/-- A two-byte operand. -/
def decodeByte2 (mk : Byte → Byte → Instr) : List Byte → Except DecodeError (Instr × List Byte)
  | a :: b :: rest => .ok (mk a b, rest)
  | _ => .error .truncated

/-! ### The script (notes/assumptions/4.md) -/

/-- The byte an operation of a format starts with in the script. -/
def formatTag : Format → Byte
  | .byteClass => 0x01#8
  | .hexDigit => 0x02#8
  | .header => 0x03#8
  | .pair => 0x04#8
  | .trailer => 0x05#8
  | .hostStrobe => 0x06#8
  | .handshake => 0x07#8
  | .rxSelect => 0x08#8
  | .wrSelect => 0x09#8
  | .snapRd => 0x0A#8
  | .rdCount => 0x0B#8
  | .event => 0x0C#8
  | .feed => 0x10#8
  | .step => 0x11#8
  | .hexval => 0x12#8
  | .hexpair => 0x13#8
  | .cksum => 0x14#8
  | .decode => 0x15#8
  | .apply => 0x16#8
  | .snapshot => 0x17#8
  | .dispatch => 0x18#8

/-- Every format. -/
def allFormats : List Format :=
  [.byteClass, .hexDigit, .header, .pair, .trailer, .hostStrobe, .handshake, .rxSelect,
   .wrSelect, .snapRd, .rdCount, .event, .feed, .step, .hexval, .hexpair,
   .cksum, .decode, .apply, .snapshot, .dispatch]

/-- The format whose tag a byte is. -/
def formatOf (tag : Byte) : Option Format := allFormats.find? fun f => formatTag f == tag

/-- The first operation of a byte sequence in a given format. The parameter is `HEX_LOWER_OK`. -/
def decodeAs (lowerOk : Bool) : Format → List Byte → Except DecodeError (Instr × List Byte)
  | .byteClass, bs => decodeByte1 decodeByteClass bs
  | .hexDigit, bs => decodeByte1 (decodeHexDigit lowerOk) bs
  | .header, bs => decodeHeader bs
  | .pair, bs => decodePair bs
  | .trailer, bs => decodeTrailer bs
  | .hostStrobe, bs => decodeHostStrobe bs
  | .handshake, bs => decodeHandshake bs
  | .rxSelect, bs => decodeRxSelect bs
  | .wrSelect, bs => decodeWrSelect bs
  | .snapRd, bs => decodeSnapRd bs
  | .rdCount, bs => .ok (.rdCount, bs)
  | .event, bs => decodeEvent bs
  | .feed, bs => decodeBytes .feedFn bs
  | .step, bs => decodeByte1 .stepFn bs
  | .hexval, bs => decodeByte1 .hexvalFn bs
  | .hexpair, bs => decodeByte2 .hexpairFn bs
  | .cksum, bs => decodeBytes .cksumFn bs
  | .decode, bs => decodeBytes .decodeFn bs
  | .apply, bs => decodeBytes .applyFn bs
  | .snapshot, bs => .ok (.snapshotFn, bs)
  | .dispatch, bs => decodeBytes .dispatchFn bs

/-- The first operation of a byte sequence and the bytes after it, or why there is none. Total. The parameter is
`HEX_LOWER_OK`. -/
def decode (lowerOk : Bool) : List Byte → Except DecodeError (Instr × List Byte)
  | [] => .error .noBytes
  | tag :: bs =>
    match formatOf tag with
    | none => .error (.unknownFormat tag)
    | some f => decodeAs lowerOk f bs

/-! ### The encoder -/

/-- A byte-sequence operand with its length before it. -/
def encodeBytes (bs : List Byte) : List Byte := wordBytes (BitVec.ofNat 32 bs.length) ++ bs

/-- The byte of a digit class whose match is `base` and whose open low bits are `d` (30_encoding.md R57). -/
def digitByte {w : Nat} (base : Byte) (d : BitVec w) : Byte := base ||| d.setWidth 8

/-- The bytes of an operation: its format's tag, then the bits the table gives its row, then its operands. -/
def encode : Instr → List Byte
  | .stx => [formatTag .byteClass, 0x02#8]
  | .etx => [formatTag .byteClass, 0x03#8]
  | .other b => [formatTag .byteClass, b]
  | .hex07 d => [formatTag .hexDigit, digitByte 0x30#8 d]
  | .hex89 d => [formatTag .hexDigit, digitByte 0x38#8 d]
  | .hexUpA => [formatTag .hexDigit, 0x41#8]
  | .hexUpBC d => [formatTag .hexDigit, digitByte 0x42#8 d]
  | .hexUpDE d => [formatTag .hexDigit, digitByte 0x44#8 d]
  | .hexUpF => [formatTag .hexDigit, 0x46#8]
  | .hexLoA => [formatTag .hexDigit, 0x61#8]
  | .hexLoBC d => [formatTag .hexDigit, digitByte 0x62#8 d]
  | .hexLoDE d => [formatTag .hexDigit, digitByte 0x64#8 d]
  | .hexLoF => [formatTag .hexDigit, 0x66#8]
  | .notHex c => [formatTag .hexDigit, c]
  | .frameHeader cmd addr res => [formatTag .header, 0x02#8, cmd, addr] ++ halfBytes res
  | .framePayloadPair h l => [formatTag .pair, h, l]
  | .frameTrailer h l => [formatTag .trailer, 0x03#8, h, l]
  | .init rows columns address => [formatTag .hostStrobe, 0x02#8] ++ wordBytes rows ++ wordBytes columns ++ [address]
  | .snapshot => [formatTag .hostStrobe, 0x01#8]
  | .rxByte b => [formatTag .handshake, 0x03#8, b]
  | .enq => [formatTag .rxSelect, 0x02#8]
  | .applyQ => [formatTag .wrSelect, 0x01#8]
  | .snapRd r c => [formatTag .snapRd] ++ wordBytes r ++ wordBytes c
  | .rdCount => [formatTag .rdCount]
  | .evtOk w => [formatTag .event, 0x00#8, bitByte w]
  | .evtTooShort => [formatTag .event, 0x01#8]
  | .evtInvalidFraming => [formatTag .event, 0x02#8]
  | .evtChecksumMismatch => [formatTag .event, 0x03#8]
  | .evtNotAddressedToUs => [formatTag .event, 0x04#8]
  | .feedFn chunk => [formatTag .feed] ++ encodeBytes chunk
  | .stepFn b => [formatTag .step, b]
  | .hexvalFn c => [formatTag .hexval, c]
  | .hexpairFn c0 c1 => [formatTag .hexpair, c0, c1]
  | .cksumFn f => [formatTag .cksum] ++ encodeBytes f
  | .decodeFn f => [formatTag .decode] ++ encodeBytes f
  | .applyFn payload => [formatTag .apply] ++ encodeBytes payload
  | .snapshotFn => [formatTag .snapshot]
  | .dispatchFn chunk => [formatTag .dispatch] ++ encodeBytes chunk

/-! ### The opcode table's words (notes/assumptions/14.md) -/

/-- Byte `i` of a table word, counted from the least significant. -/
def tableByte (i w : Nat) : Byte := BitVec.ofNat 8 (w / 256 ^ i)

/-- The script bytes of a table word: the tag of the format the word is read in, the word's bytes in wire order (the table
writes the first wire byte as the most significant), and zeros for the operands the table gives no bits. A word does not
say its format and some words stand in several formats; which one is read is listed in notes/assumptions/14.md. -/
def tableBytes (nbits w : Nat) : List Byte :=
  let digitOrClass : List Byte :=
    if matchesHexRow true (tableByte 0 w) then [formatTag .hexDigit, tableByte 0 w] else [formatTag .byteClass, tableByte 0 w]
  if nbits = 0 then [formatTag .rdCount]
  else if nbits ≤ 8 then
    if w = 0 then [formatTag .event, 0#8, 0#8]
    else if w = 1 then [formatTag .hostStrobe, 1#8]
    else if w = 2 then [formatTag .rxSelect, 2#8]
    else if w = 3 then [formatTag .handshake, 3#8, 0#8]
    else if w < 8 then [formatTag .event, tableByte 0 w]
    else digitOrClass
  else if nbits ≤ 16 then
    if w < 512 then digitOrClass else [formatTag .pair, tableByte 1 w, tableByte 0 w]
  else if nbits ≤ 32 then
    if tableByte 2 w = 0x03#8 then [formatTag .trailer, 0x03#8, tableByte 1 w, tableByte 0 w]
    else [formatTag .pair, tableByte 1 w, tableByte 0 w]
  else if nbits ≤ 48 then
    [formatTag .header, tableByte 4 w, tableByte 3 w, tableByte 2 w, tableByte 1 w, tableByte 0 w]
  else
    [formatTag .snapRd, tableByte 7 w, tableByte 6 w, tableByte 5 w, tableByte 4 w, tableByte 3 w, tableByte 2 w, tableByte 1 w,
      tableByte 0 w]

/-- The operation the decoder reads from a table word of `nbits` bits (reference value `HEX_LOWER_OK = true`). -/
def decodeTableWord (nbits w : Nat) : Option Instr :=
  match decode true (tableBytes nbits w) with
  | .ok (i, _) => some i
  | .error _ => none

end Sys2Proof
end

