-- ==== Sys2Proof/Config.lean ====
section
/-! DEFINITION. What an implementation of HFR fixes (spec/00_scope.md rule R7) and the one value the spec leaves
without a statement. -/

namespace Sys2Proof

/-- The implementation parameters of 00_scope.md rule R7. The rule makes each "a named parameter the model takes as an
argument": the model carries them in `State.par`, which no operation writes, so a statement over every state is a
statement over every value of them (notes/assumptions/2.md). -/
structure Params where
  /-- `PENDING_CAP`: greatest length of the carry-over buffer at rest; `none` is `INF`. -/
  pendingCap : Option Nat
  /-- `QUEUE_CAP`: greatest number of updates in the hand-over queue; legal values are at least 1. -/
  queueCap : Nat
  /-- `HEX_LOWER_OK`: whether `a` to `f` are hexadecimal digits. -/
  hexLowerOk : Bool
deriving DecidableEq, Repr

namespace Config

/-- The reference values of R7 for a model of the document: `PENDING_CAP = INF`, `QUEUE_CAP = 128`,
`HEX_LOWER_OK = true`. -/
def reference : Params := { pendingCap := none, queueCap := 128, hexLowerOk := true }

/-- FREE VALUE (notes/assumptions/10.md). `hex_errs` counts every malformed pair of a payload (42_bitmap.md R93) and
goes out as a `u32` (10_state.md R22); the spec states no value of that `u32` for a count of 2^32 or more. The arguments
are the draw number (`State.draws`) and the exact count. No body: nothing can be proved of its value. -/
opaque hexErrsBeyond : Nat → Nat → Word32

end Config
end Sys2Proof
end

