-- ==== Sys2Proof/Machine/State.lean ====
section
/-! DEFINITION. The state of HFR (spec/10_state.md), the records it is made of, the reasons a step can stop, and the state
after reset. -/

namespace Sys2Proof.Machine

/-- `CFG`, the `DisplayConfig` (10_state.md R11). -/
structure DisplayConfig where
  rows : Word32
  columns : Word32
  address : Byte
deriving DecidableEq, Repr

/-- A decoded update (10_state.md R17): `bits` is the payload as it stood in the frame, still ASCII-hex text. -/
structure PixelUpdate where
  address : Byte
  resolution : Half
  bits : List Byte
  resWarn : Bool
deriving DecidableEq, Repr

/-- What `decode` returns for one frame (41_decoder.md R89; 90_conflicts.md C4). -/
inductive DecodeOutcome where
  | ok (u : PixelUpdate)
  | tooShort
  | invalidFraming
  | checksumMismatch
  | notAddressedToUs
deriving DecidableEq, Repr

/-- The five event codes (30_encoding.md R61); codes 5 to 7 do not exist. -/
inductive EventCode where
  | ok
  | tooShort
  | invalidFraming
  | checksumMismatch
  | notAddressedToUs
deriving DecidableEq, Repr

/-- One event, emitted per frame (10_state.md R22, 60_exceptions.md R122). -/
structure Event where
  code : EventCode
  resWarn : Bool
deriving DecidableEq, Repr

/-- One notification, emitted per applied update (10_state.md R22, 43_dispatcher.md R105). -/
structure Notification where
  count : Word32
  hexErrs : Word32
deriving DecidableEq, Repr

/-- The fault register (10_state.md R21). -/
structure FaultReg where
  rxOverflow : Bool
deriving DecidableEq, Repr

/-- A cell address of the grid: row, column (20_memory.md R32). -/
abbrev Cell := Nat × Nat

/-- A grid of bits: the cells that are 1, strictly rising by column and then row (`Grid.wf`, Machine/Ops.lean). A cell
not listed is 0, the reset value of 10_state.md R18. notes/assumptions/13.md -/
abbrev Grid := List Cell

/-- `PHASE` (10_state.md R14), RX's state machine; computed, not stored. -/
inductive Phase where
  | awaitStart
  | accumulating
  | frameReady
  | validUpdate
  | dropped
deriving DecidableEq, Repr

/-- What one `apply` gives (42_bitmap.md R90). -/
structure ApplyResult where
  grid : Grid
  count : Word32
  hexErrs : Nat
deriving DecidableEq, Repr

/-- The value the last read or function call returned (00_scope.md R9 (c), (d)): the model's own, not HFR's state
(notes/assumptions/3.md). -/
inductive Result where
  | none
  | digit (v : Option (BitVec 4))
  | pair (v : Option Byte)
  | cksum (v : Byte)
  | outcome (r : DecodeOutcome)
  | frame (f : Option (List Byte))
  | frames (fs : List (List Byte))
  | applied (count : Word32) (hexErrs : Nat)
  | grid (g : Grid)
  | bit (b : Bool)
  | count (v : Word32)
deriving DecidableEq, Repr

/-- Everything the spec gives HFR (10_state.md R10), the parameters it takes (R24), and the model's own fields. -/
structure State where
  /-- `PENDING_CAP`, `QUEUE_CAP`, `HEX_LOWER_OK` (00_scope.md R7); no operation writes them. -/
  par : Params
  /-- The model's own: an INIT has happened (70_reset_and_hazards.md R140). -/
  live : Bool
  /-- `CFG` (10_state.md R11). -/
  cfg : DisplayConfig
  /-- `P`, the carry-over buffer (10_state.md R12). -/
  pending : List Byte
  /-- `HANDOVER` (10_state.md R15). -/
  handover : Option PixelUpdate
  /-- `Q`, head first (10_state.md R16). -/
  queue : List PixelUpdate
  /-- `GRID` (10_state.md R18). -/
  grid : Grid
  /-- `UPDATED_COUNT` (10_state.md R19). -/
  updatedCount : Word32
  /-- `SNAP`, with the dimensions of `GRID` (10_state.md R20). -/
  snap : Option Grid
  /-- `FAULT` (10_state.md R21). -/
  fault : FaultReg
  /-- `EVT`, oldest first (10_state.md R22). -/
  evt : List Event
  /-- `NOTE`, oldest first (10_state.md R22). -/
  note : List Notification
  /-- The model's own: what the last read or function call returned. -/
  result : Result
  /-- The model's own: the script of what the environment does and which agent moves next (10_state.md R24,
  30_encoding.md R63), as encoded operations. -/
  stim : List Byte
  /-- The model's own: free values drawn so far (`Config.hexErrsBeyond`). -/
  draws : Nat
deriving DecidableEq, Repr

/-- No step of HFR faults: "Nothing in this core is fatal" (60_exceptions.md). `FAULT.rx_overflow` is a bit of the state,
not a stop (R127). Nobody raises a fault, so there is no constructor. -/
inductive Fault where
deriving DecidableEq, Repr

/-- Why a step has no next state. -/
inductive Refusal where
  /-- Raised by an arm of `exec` whose operation has no meaning yet; no arm does. Safe. -/
  | notModelled (mnemonic : String)
  /-- Raised by every operation that reads or writes HFR's state, INIT apart, before the first INIT: no step but INIT has a
  meaning there (70_reset_and_hazards.md R140, 93_implementation_defined.md U14). Safe. -/
  | beforeInit
  /-- Raised by INIT with `rows = 0` or `columns = 0` (43_dispatcher.md R100, U15). Safe. -/
  | initZeroDimension
  /-- Raised by SNAPRD while `SNAP = NONE` (43_dispatcher.md R107, U16). Safe. -/
  | snapReadBeforeSnapshot
  /-- Raised by SNAPRD with a row or column outside the grid (43_dispatcher.md R107, U16). Safe. -/
  | snapReadOutOfRange
  /-- Raised by `step` where the script's bytes are no operation (notes/assumptions/4.md). Safe. -/
  | badStimulus (e : DecodeError)
deriving DecidableEq, Repr

/-- The state right after reset: every item as 10_state.md R25 has it after INIT. The spec gives the configuration inputs
no default: 16 rows, 96 columns, address 0x01, the source's one example display (notes/assumptions/11.md). -/
def State.reset : State where
  par := Config.reference
  live := true
  cfg := { rows := 16#32, columns := 96#32, address := 0x01#8 }
  pending := []
  handover := none
  queue := []
  grid := []
  updatedCount := 0#32
  snap := none
  fault := { rxOverflow := false }
  evt := []
  note := []
  result := .none
  stim := []
  draws := 0

end Sys2Proof.Machine
end

