-- ==== Sys2Proof/Machine/Operands.lean ====
section
/-! DEFINITION. How operands are read: the constants of 00_scope.md R5, `find` and slices (00_scope.md section 5), hexadecimal
text (41_decoder.md R80, R81), the fields of a frame (30_encoding.md R50), the bits of a decoded byte (42_bitmap.md R91), and
the bytes an operation puts on the receive port. -/

namespace Sys2Proof.Machine

/-! ### Constants (00_scope.md R5) -/

/-- Start marker, frame byte 0. -/
def STX : Byte := 0x02#8

/-- End marker, frame byte `N-3`. -/
def ETX : Byte := 0x03#8

/-- Checksum bytes after `ETX`. -/
def trailerLen : Nat := 2

/-- Shortest frame FD accepts (90_conflicts.md C1). -/
def minFrameLen : Nat := 9

/-- Offset of the first payload byte. -/
def hdrLen : Nat := 5

/-- Rows one decoded payload byte covers. -/
def rowsPerByte : Nat := 8

/-! ### Sequences (00_scope.md section 5) -/

/-- Index of the first `v`, counting from `i` at the head. -/
def findAt (v : Byte) : List Byte → Nat → Option Nat
  | [], _ => none
  | b :: bs, i => if b = v then some i else findAt v bs (i + 1)

/-- `find(s, v, from)`: the least index `i >= from` with `s[i] = v`, or `NONE`. -/
def find (s : List Byte) (v : Byte) (start : Nat) : Option Nat := findAt v (s.drop start) start

/-- `s[a..b)`; empty when `a >= b`. -/
def slice (s : List Byte) (a b : Nat) : List Byte := (s.take b).drop a

/-- `s[i]`, read only at an index inside `s`. -/
def byteAt (s : List Byte) (i : Nat) : Byte := s.getD i 0#8

/-! ### Hexadecimal text -/

/-- `hexval` (41_decoder.md R80): the value of a hexadecimal digit; `lowerOk` is `HEX_LOWER_OK`. -/
def hexval (lowerOk : Bool) (c : Byte) : Option (BitVec 4) :=
  if 0x30#8 ≤ c ∧ c ≤ 0x39#8 then some ((c - 0x30#8).setWidth 4)
  else if 0x41#8 ≤ c ∧ c ≤ 0x46#8 then some ((c - 0x37#8).setWidth 4)
  else if lowerOk = true ∧ 0x61#8 ≤ c ∧ c ≤ 0x66#8 then some ((c - 0x57#8).setWidth 4)
  else none

/-- `hexpair` (41_decoder.md R81): `16 * hexval(c0) + hexval(c1)`, `NONE` if either is no digit. -/
def hexpair (lowerOk : Bool) (c0 c1 : Byte) : Option Byte :=
  match hexval lowerOk c0, hexval lowerOk c1 with
  | some h, some l => some (16#8 * h.setWidth 8 + l.setWidth 8)
  | _, _ => none

/-! ### Fields of a frame of `N = f.length` bytes (30_encoding.md R50 to R55) -/

/-- Frame byte 2 (R52). -/
def frameAddress (f : List Byte) : Byte := byteAt f 2

/-- Frame bytes 3 and 4, big-endian (R53). -/
def frameResolution (f : List Byte) : Half := halfOf (byteAt f 3) (byteAt f 4)

/-- Frame bytes `5 .. N-4` (R54, 41_decoder.md R88). -/
def framePayload (f : List Byte) : List Byte := slice f hdrLen (f.length - (trailerLen + 1))

/-- Frame byte `N-3`. -/
def frameEndMarker (f : List Byte) : Byte := byteAt f (f.length - (trailerLen + 1))

/-- The checksum the trailer spells, if its characters are digits (R55). -/
def frameChecksum (lowerOk : Bool) (f : List Byte) : Option Byte :=
  hexpair lowerOk (byteAt f (f.length - 2)) (byteAt f (f.length - 1))

/-! ### A decoded payload byte -/

/-- `bitval(v, b) = (v >> (7 - b)) & 1` (42_bitmap.md R91): bit index `b` is row `b`, most significant bit first. -/
def bitval (v : Byte) (b : Nat) : Bool := (v >>> (rowsPerByte - 1 - b)) &&& 1#8 == 1#8

/-! ### The receive port -/

/-- The stream bytes an operation brings to RX, in wire order: one for RXBYTE and the byte classes (30_encoding.md R56), the
field's bytes for a frame field (R50), none for every other operation. notes/assumptions/7.md -/
def wireBytes : Instr → List Byte
  | .stx => [STX]
  | .etx => [ETX]
  | .other b => [b]
  | .rxByte b => [b]
  | .frameHeader cmd addr res => [STX, cmd, addr] ++ halfBytes res
  | .framePayloadPair h l => [h, l]
  | .frameTrailer h l => [ETX, h, l]
  | .hex07 _ => []
  | .hex89 _ => []
  | .hexUpA => []
  | .hexUpBC _ => []
  | .hexUpDE _ => []
  | .hexUpF => []
  | .hexLoA => []
  | .hexLoBC _ => []
  | .hexLoDE _ => []
  | .hexLoF => []
  | .notHex _ => []
  | .init _ _ _ => []
  | .snapshot => []
  | .enq => []
  | .applyQ => []
  | .snapRd _ _ => []
  | .rdCount => []
  | .evtOk _ => []
  | .evtTooShort => []
  | .evtInvalidFraming => []
  | .evtChecksumMismatch => []
  | .evtNotAddressedToUs => []
  | .feedFn _ => []
  | .stepFn _ => []
  | .hexvalFn _ => []
  | .hexpairFn _ _ => []
  | .cksumFn _ => []
  | .decodeFn _ => []
  | .applyFn _ => []
  | .snapshotFn => []
  | .dispatchFn _ => []

end Sys2Proof.Machine
end

