-- ==== Sys2Proof/Machine/Flags.lean ====
section
/-! DEFINITION. What HFR computes beside its data: the checksum (41_decoder.md R84), the resolution warning (R87), the
event of an outcome (60_exceptions.md R122) and its code, `PHASE` (10_state.md R14), the selection vectors
(30_encoding.md R62), and the `u32` of `hex_errs`. -/

namespace Sys2Proof.Machine

/-! ### Checksum and warning -/

/-- The sum of a byte sequence as a natural number, no wrap. -/
def byteSum (bs : List Byte) : Nat := (bs.map BitVec.toNat).sum

/-- `cksum(f)` (41_decoder.md R84; 90_conflicts.md C2): the sum of `f[1..N-3)`, less 2 in a 32-bit accumulator, XOR `0xFF`,
plus 1, low 8 bits. -/
def cksum (f : List Byte) : Byte :=
  let sum : Word32 := BitVec.ofNat 32 (byteSum (slice f 1 (f.length - (trailerLen + 1))))
  (((sum - 2#32) ^^^ 0xFF#32) + 1#32).setWidth 8

/-- `(CFG.rows * CFG.columns) div 8` in natural numbers (41_decoder.md R87). -/
def expectedResolution (cfg : DisplayConfig) : Nat := cfg.rows.toNat * cfg.columns.toNat / 8

/-- `res_warn`: the resolution field differs from the expected value (41_decoder.md R87). -/
def resWarn (cfg : DisplayConfig) (f : List Byte) : Bool := (frameResolution f).toNat != expectedResolution cfg

/-! ### Events -/

/-- The code of an outcome (60_exceptions.md R120). -/
def eventCode : DecodeOutcome → EventCode
  | .ok _ => .ok
  | .tooShort => .tooShort
  | .invalidFraming => .invalidFraming
  | .checksumMismatch => .checksumMismatch
  | .notAddressedToUs => .notAddressedToUs

/-- `event(r)` (60_exceptions.md R122): `res_warn` is the update's if `r` is `Ok`, else 0. -/
def eventOf (r : DecodeOutcome) : Event :=
  { code := eventCode r, resWarn := match r with | .ok u => u.resWarn | _ => false }

/-- The three bits on `evt_code` (30_encoding.md R61). -/
def eventCodeBits : EventCode → BitVec 3
  | .ok => 0#3
  | .tooShort => 1#3
  | .invalidFraming => 2#3
  | .checksumMismatch => 3#3
  | .notAddressedToUs => 4#3

/-! ### Enabling conditions and `PHASE` -/

/-- `rx_ready` (30_encoding.md R60, 43_dispatcher.md R101): RX accepts a byte. -/
def rxReady (s : State) : Bool := s.handover.isNone && !s.fault.rxOverflow

/-- ENQ is enabled (43_dispatcher.md R102): `HANDOVER = SOME(u)` and `len(Q) < QUEUE_CAP`. -/
def enqEnabled (s : State) : Bool := s.handover.isSome && decide (s.queue.length < s.par.queueCap)

/-- APPLYQ is enabled (43_dispatcher.md R103): `Q != []`. -/
def applyEnabled (s : State) : Bool := !s.queue.isEmpty

/-- The vector `{HANDOVER != NONE, len(Q) = QUEUE_CAP}` (30_encoding.md R62). -/
def rxVector (s : State) : BitVec 2 :=
  (BitVec.ofBool s.handover.isSome) ++ (BitVec.ofBool (s.queue.length == s.par.queueCap))

/-- The bit `{len(Q) > 0}` (30_encoding.md R62). -/
def wrVector (s : State) : BitVec 1 := BitVec.ofBool (decide (0 < s.queue.length))

/-- The vector `{rx_valid, rx_ready}` (30_encoding.md R62). -/
def handshakeVector (rxValid : Bool) (s : State) : BitVec 2 := BitVec.ofBool rxValid ++ BitVec.ofBool (rxReady s)

/-- A buffer of length `n` exceeds `PENDING_CAP` (43_dispatcher.md R101); never, if it is `INF`. -/
def exceedsCap (cap : Option Nat) (n : Nat) : Bool :=
  match cap with
  | none => false
  | some c => decide (c < n)

/-- `PHASE` (10_state.md R14), a function of `HANDOVER` and `P`. -/
def phase (s : State) : Phase :=
  if s.handover.isSome then .validUpdate else if s.pending.isEmpty then .awaitStart else .accumulating

/-- The 3-bit encoding of a stored `PHASE` (10_state.md R14); 5 to 7 never occur. -/
def phaseCode : Phase → BitVec 3
  | .awaitStart => 0#3
  | .accumulating => 1#3
  | .frameReady => 2#3
  | .validUpdate => 3#3
  | .dropped => 4#3

/-! ### The notification's `hex_errs` -/

/-- `upd_hex_errs` (10_state.md R22, 30_encoding.md R60): the count of malformed pairs as a `u32`. The spec states none for
a count of 2^32 or more: there it is a free value (notes/assumptions/10.md). -/
def hexErrs32 (draw n : Nat) : Word32 := if n < 2 ^ 32 then BitVec.ofNat 32 n else Config.hexErrsBeyond draw n

end Sys2Proof.Machine
end

