-- ==== Sys2Proof/Machine/Ops.lean ====
section
/-! DEFINITION. The named operations of HFR over its state: the grid and `apply` (42_bitmap.md), `feed` and `step`
(40_reassembler.md), `decode` (41_decoder.md), emitting events and notifications (60_exceptions.md, 43_dispatcher.md), and
the agents' steps (43_dispatcher.md). -/

namespace Sys2Proof.Machine

/-! ### The grid (20_memory.md R32, 10_state.md R18) -/

/-- The order of cells: by column, then by row. -/
def cellLt (x y : Cell) : Bool := decide (x.2 < y.2 ∨ (x.2 = y.2 ∧ x.1 < y.1))

/-- `GridRead(r, c)`. -/
def Grid.get (g : Grid) (r c : Nat) : Bool := g.contains (r, c)

/-- Puts a cell at its place in the order, once. -/
def Grid.insert (x : Cell) : Grid → Grid
  | [] => [x]
  | y :: ys => if x = y then y :: ys else if cellLt x y then x :: y :: ys else y :: Grid.insert x ys

/-- `GridWrite(r, c, v)`: a 1 is listed, a 0 is not. -/
def Grid.set (g : Grid) (r c : Nat) (v : Bool) : Grid :=
  if v then Grid.insert (r, c) g else g.filter (· != (r, c))

/-- A fresh grid: every cell 0. -/
def Grid.fresh : Grid := []

/-- The canonical form: cells strictly rising. -/
def Grid.wf : Grid → Bool
  | [] => true
  | [_] => true
  | x :: y :: rest => cellLt x y && Grid.wf (y :: rest)

/-- The address computation of `apply` (20_memory.md R32, 42_bitmap.md R95): the cell exists. -/
def inGrid (cfg : DisplayConfig) (r c : Nat) : Bool := decide (c < cfg.columns.toNat ∧ r < cfg.rows.toNat)

/-! ### `apply` and `snapshot` (42_bitmap.md) -/

/-- One cell of R92's inner loop: written and counted only inside the grid and only when its value changes. -/
def writeCell (cfg : DisplayConfig) (k b : Nat) (new : Bool) (a : ApplyResult) : ApplyResult :=
  if inGrid cfg b k && a.grid.get b k != new then { a with grid := a.grid.set b k new, count := a.count + 1#32 } else a

/-- R91: decoded byte `v` of pair `k` goes to column `k`, bit index `b` to row `b`. -/
def writeColumn (cfg : DisplayConfig) (k : Nat) (v : Byte) (a : ApplyResult) : ApplyResult :=
  (List.range rowsPerByte).foldl (fun a b => writeCell cfg k b (bitval v b) a) a

/-- R92's loop from pair `k` on: a malformed pair is counted and skipped and leaves column `k` alone (R93), the loop ends
when fewer than two bytes are left (R94). -/
def applyLoop (lowerOk : Bool) (cfg : DisplayConfig) : Nat → List Byte → ApplyResult → ApplyResult
  | k, c0 :: c1 :: rest, a =>
    match hexpair lowerOk c0 c1 with
    | none => applyLoop lowerOk cfg (k + 1) rest { a with hexErrs := a.hexErrs + 1 }
    | some v => applyLoop lowerOk cfg (k + 1) rest (writeColumn cfg k v a)
  | _, _, a => a

/-- `apply(GRID, payload, CFG)` (42_bitmap.md R90, R92). -/
def applyPayload (lowerOk : Bool) (cfg : DisplayConfig) (g : Grid) (payload : List Byte) : ApplyResult :=
  applyLoop lowerOk cfg 0 payload { grid := g, count := 0#32, hexErrs := 0 }

/-- `snapshot(GRID)` (42_bitmap.md R99): a copy, equal cell for cell. -/
def snapshotOf (g : Grid) : Grid := g

/-! ### `feed` and `step` (40_reassembler.md) -/

/-- The loop of R70. Every pass that does not return removes at least 4 bytes, so the length of the buffer is fuel
enough. -/
def feedLoop : Nat → List Byte → List (List Byte) → List Byte × List (List Byte)
  | 0, p, frames => (p, frames)
  | fuel + 1, p, frames =>
    match find p STX 0 with
    | none => ([], frames)
    | some start =>
      let p := p.drop start
      match find p ETX 1 with
      | none => (p, frames)
      | some e =>
        if p.length - (e + 1) < trailerLen then (p, frames)
        else feedLoop fuel (p.drop (e + 3)) (frames ++ [p.take (e + 3)])

/-- `feed(P, chunk)` (R70): the new buffer and the frames cut, in arrival order. -/
def feed (p chunk : List Byte) : List Byte × List (List Byte) :=
  feedLoop ((p ++ chunk).length + 1) (p ++ chunk) []

/-- `step(P, b)` (R71): the four-state detector. -/
def stepByte (p : List Byte) (b : Byte) : List Byte × Option (List Byte) :=
  if p = [] then
    if b = STX then ([STX], none) else ([], none)
  else
    match find p ETX 1 with
    | none => (p ++ [b], none)
    | some e => if p.length - (e + 1) = 0 then (p ++ [b], none) else ([], some (p ++ [b]))

/-! ### `decode` (41_decoder.md R89) -/

/-- The five outcomes, the first check that fails deciding (R82 to R88, 60_exceptions.md R123). -/
def decodeFrame (lowerOk : Bool) (cfg : DisplayConfig) (f : List Byte) : DecodeOutcome :=
  if f.length < minFrameLen then .tooShort
  else if byteAt f 0 ≠ STX ∨ frameEndMarker f ≠ ETX then .invalidFraming
  else if frameChecksum lowerOk f ≠ some (cksum f) then .checksumMismatch
  else if frameAddress f ≠ cfg.address then .notAddressedToUs
  else .ok { address := frameAddress f, resolution := frameResolution f, bits := framePayload f, resWarn := resWarn cfg f }

/-! ### Emitting (60_exceptions.md R122, 43_dispatcher.md R105) and returning values -/

/-- Appends an event to `EVT`: what the spec has in the place of taking an exception (60_exceptions.md R122, R126). Nothing
is saved and nothing vectors, so there is no return. -/
def emitEvent (e : Event) (s : State) : State := { s with evt := s.evt ++ [e] }

/-- The value a read or a function call returns (notes/assumptions/3.md). -/
def returns (r : Result) (s : State) : State := { s with result := r }

/-- Sets the sticky overflow bit (10_state.md R21). -/
def raiseOverflow (s : State) : State := { s with fault := { rxOverflow := true } }

/-- The end of APPLYQ and of `DISPATCH`'s `Ok` branch (43_dispatcher.md R103, R104): the grid, then `UPDATED_COUNT`, then the
notification. -/
def applyUpdate (u : PixelUpdate) (s : State) : State :=
  let a := applyPayload s.par.hexLowerOk s.cfg s.grid u.bits
  { s with
    grid := a.grid
    updatedCount := a.count
    note := s.note ++ [{ count := a.count, hexErrs := hexErrs32 s.draws a.hexErrs }]
    draws := s.draws + 1 }

/-! ### The agents' steps (43_dispatcher.md) -/

/-- 70_reset_and_hazards.md R140: before the first INIT no step but INIT has a meaning. -/
def whenLive (s : State) (next : State) : Host.Outcome State Fault Refusal :=
  if s.live then .next next else .refused .beforeInit

/-- INIT's effect (43_dispatcher.md R100): every item of state at its value of 10_state.md R25. The parameters and the
script are not HFR's state. -/
def initialise (rows columns : Word32) (address : Byte) (s : State) : State :=
  { s with
    live := true
    cfg := { rows := rows, columns := columns, address := address }
    pending := []
    handover := none
    queue := []
    grid := Grid.fresh
    updatedCount := 0#32
    snap := none
    fault := { rxOverflow := false }
    evt := []
    note := []
    result := .none }

/-- What RX does with the outcome of a frame it has cut from `P` (43_dispatcher.md R101): `P` is empty, the event is emitted,
an `Ok` update is held in `HANDOVER`; a drop or an ignore does nothing more (60_exceptions.md R124). -/
def settleOutcome (r : DecodeOutcome) (s : State) : State :=
  match r with
  | .ok u => emitEvent (eventOf r) { s with pending := [], handover := some u }
  | _ => emitEvent (eventOf r) { s with pending := [] }

/-- What RX does with a frame FR has cut (43_dispatcher.md R101). -/
def takeFrame (fr : List Byte) (s : State) : State := settleOutcome (decodeFrame s.par.hexLowerOk s.cfg fr) s

/-- RXBYTE(b) where it is enabled (43_dispatcher.md R101). -/
def rxTake (b : Byte) (s : State) : State :=
  match stepByte s.pending b with
  | (p, none) => if exceedsCap s.par.pendingCap p.length then raiseOverflow s else { s with pending := p }
  | (_, some fr) => takeFrame fr s

/-- The bytes stay on offer: ENV-TX keeps a byte until `rx_ready` (43_dispatcher.md R112), so they stand at the head of the
script again, each as an RXBYTE. notes/assumptions/5.md -/
def offerAgain (bs : List Byte) (s : State) : State := { s with stim := bs.flatMap (fun b => encode (.rxByte b)) ++ s.stim }

/-- ENV-TX offers bytes in order: RX takes each while it is ready; where it is not, that byte and the ones after it stay on
offer. -/
def rxBytes : List Byte → State → State
  | [], s => s
  | b :: bs, s => if rxReady s then rxBytes bs (rxTake b s) else offerAgain (b :: bs) s

/-- ENQ (43_dispatcher.md R102); where it is not enabled RX has no step and the state stays (notes/assumptions/6.md). -/
def enqueue (s : State) : State :=
  match s.handover with
  | some u => if s.queue.length < s.par.queueCap then { s with queue := s.queue ++ [u], handover := none } else s
  | none => s

/-- APPLYQ (43_dispatcher.md R103); with `Q = []` WR has no step and the state stays (notes/assumptions/6.md). -/
def applyHead (s : State) : State :=
  match s.queue with
  | [] => s
  | u :: rest => applyUpdate u { s with queue := rest }

/-- The outcome of one frame in the reference machine (43_dispatcher.md R104). -/
def dispatchOutcome (r : DecodeOutcome) (s : State) : State :=
  match r with
  | .ok u => applyUpdate u (emitEvent (eventOf r) s)
  | _ => emitEvent (eventOf r) s

/-- One frame of the reference machine (43_dispatcher.md R104). -/
def dispatchFrame (s : State) (f : List Byte) : State := dispatchOutcome (decodeFrame s.par.hexLowerOk s.cfg f) s

/-- `DISPATCH(chunk)`, the reference machine (43_dispatcher.md R104). -/
def dispatch (chunk : List Byte) (s : State) : State :=
  let (p, frames) := feed s.pending chunk
  frames.foldl dispatchFrame { s with pending := p }

/-! ### The script (notes/assumptions/1.md, 5.md) -/

/-- What HFR does with no operation of the script to run (43_dispatcher.md R109, R113): ENQ if it is enabled, else APPLYQ if
it is enabled, else nothing. -/
def internalStep (s : State) : State :=
  if enqEnabled s then enqueue s else if applyEnabled s then applyHead s else s

/-- An operation that brings bytes to a receiver that takes none (`rx_ready = 0`): the transport waits. -/
def rxBlocked (i : Instr) (s : State) : Bool := s.live && !(wireBytes i).isEmpty && !rxReady s

/-- The next operation of the script and what follows it. -/
def fetch (s : State) : Except DecodeError (Instr × List Byte) := decode s.par.hexLowerOk s.stim

/-- Places a table word at the head of the script. -/
def placeWord (s : State) (nbits w : Nat) : State := { s with stim := tableBytes nbits w ++ s.stim }

end Sys2Proof.Machine
end

