-- ==== Sys2Proof/Machine/Digits.lean ====
section
/-! DEFINITION. The meanings of the hex_digit rows (30_encoding.md R57): the value `hexval` (41_decoder.md R80) of a byte of that
class (notes/assumptions/8.md). -/

namespace Sys2Proof.Machine

/-- A byte read as a hexadecimal digit: its `hexval` is the result. It reads no state but the parameter `HEX_LOWER_OK`. -/
def returnDigit (c : Byte) (s : State) : Host.Outcome State Fault Refusal :=
  .next (returns (.digit (hexval s.par.hexLowerOk c)) s)

/-- HEX_0_7: `0` to `7` (30_encoding.md R57). -/
def execHex07 (d : BitVec 3) (s : State) : Host.Outcome State Fault Refusal := returnDigit (digitByte 0x30#8 d) s

/-- HEX_8_9: `8` and `9` (30_encoding.md R57). -/
def execHex89 (d : BitVec 1) (s : State) : Host.Outcome State Fault Refusal := returnDigit (digitByte 0x38#8 d) s

/-- HEX_UP_A: `A` (30_encoding.md R57). -/
def execHexUpA (s : State) : Host.Outcome State Fault Refusal := returnDigit 0x41#8 s

/-- HEX_UP_B_C: `B` and `C` (30_encoding.md R57). -/
def execHexUpBC (d : BitVec 1) (s : State) : Host.Outcome State Fault Refusal := returnDigit (digitByte 0x42#8 d) s

/-- HEX_UP_D_E: `D` and `E` (30_encoding.md R57). -/
def execHexUpDE (d : BitVec 1) (s : State) : Host.Outcome State Fault Refusal := returnDigit (digitByte 0x44#8 d) s

/-- HEX_UP_F: `F` (30_encoding.md R57). -/
def execHexUpF (s : State) : Host.Outcome State Fault Refusal := returnDigit 0x46#8 s

/-- HEX_LO_A: `a`, a digit only if `HEX_LOWER_OK` (30_encoding.md R57). -/
def execHexLoA (s : State) : Host.Outcome State Fault Refusal := returnDigit 0x61#8 s

/-- HEX_LO_B_C: `b` and `c`, digits only if `HEX_LOWER_OK` (30_encoding.md R57). -/
def execHexLoBC (d : BitVec 1) (s : State) : Host.Outcome State Fault Refusal := returnDigit (digitByte 0x62#8 d) s

/-- HEX_LO_D_E: `d` and `e`, digits only if `HEX_LOWER_OK` (30_encoding.md R57). -/
def execHexLoDE (d : BitVec 1) (s : State) : Host.Outcome State Fault Refusal := returnDigit (digitByte 0x64#8 d) s

/-- HEX_LO_F: `f`, a digit only if `HEX_LOWER_OK` (30_encoding.md R57). -/
def execHexLoF (s : State) : Host.Outcome State Fault Refusal := returnDigit 0x66#8 s

/-- NOT_HEX: any byte that is no digit (30_encoding.md R57). -/
def execNotHex (c : Byte) (s : State) : Host.Outcome State Fault Refusal := returnDigit c s

end Sys2Proof.Machine
end

