-- ==== Sys2Proof/Machine/Events.lean ====
section
/-! DEFINITION. The meanings of the event_code rows (30_encoding.md R61, 60_exceptions.md R120, R122): the event with that code is
emitted (notes/assumptions/9.md). -/

namespace Sys2Proof.Machine

/-- EVT_OK: event `{0, res_warn}` (60_exceptions.md R120). -/
def execEvtOk (resWarn : Bool) (s : State) : Host.Outcome State Fault Refusal :=
  whenLive s (emitEvent { code := .ok, resWarn := resWarn } s)

/-- EVT_TOO_SHORT: event `{1, 0}` (60_exceptions.md R120). -/
def execEvtTooShort (s : State) : Host.Outcome State Fault Refusal := whenLive s (emitEvent (eventOf .tooShort) s)

/-- EVT_INVALID_FRAMING: event `{2, 0}` (60_exceptions.md R120). -/
def execEvtInvalidFraming (s : State) : Host.Outcome State Fault Refusal := whenLive s (emitEvent (eventOf .invalidFraming) s)

/-- EVT_CHECKSUM_MISMATCH: event `{3, 0}` (60_exceptions.md R120). -/
def execEvtChecksumMismatch (s : State) : Host.Outcome State Fault Refusal := whenLive s (emitEvent (eventOf .checksumMismatch) s)

/-- EVT_NOT_ADDRESSED_TO_US: event `{4, 0}` (60_exceptions.md R120). -/
def execEvtNotAddressedToUs (s : State) : Host.Outcome State Fault Refusal := whenLive s (emitEvent (eventOf .notAddressedToUs) s)

end Sys2Proof.Machine
end

