-- ==== Sys2Proof/Machine/Functions.lean ====
section
/-! DEFINITION. The meanings of the function rows: a call's operands `P`, `GRID` and `CFG` are the state's, the state its rule names
is written, its other results are the operation's result (notes/assumptions/8.md). They are not steps of HFR (R109): a call
looks at no enabling condition, and `feed`, `step` and `DISPATCH` know no `PENDING_CAP` (notes/assumptions/16.md). -/

namespace Sys2Proof.Machine

/-- feed (40_reassembler.md R70): writes `P`, gives the frames. -/
def execFeedFn (chunk : List Byte) (s : State) : Host.Outcome State Fault Refusal :=
  let r := feed s.pending chunk
  whenLive s (returns (.frames r.2) { s with pending := r.1 })

/-- step (40_reassembler.md R71): writes `P`, gives the frame or `NONE`. -/
def execStepFn (b : Byte) (s : State) : Host.Outcome State Fault Refusal :=
  let r := stepByte s.pending b
  whenLive s (returns (.frame r.2) { s with pending := r.1 })

/-- hexval (41_decoder.md R80). -/
def execHexvalFn (c : Byte) (s : State) : Host.Outcome State Fault Refusal :=
  .next (returns (.digit (hexval s.par.hexLowerOk c)) s)

/-- hexpair (41_decoder.md R81). -/
def execHexpairFn (c0 c1 : Byte) (s : State) : Host.Outcome State Fault Refusal :=
  .next (returns (.pair (hexpair s.par.hexLowerOk c0 c1)) s)

/-- cksum (41_decoder.md R84). -/
def execCksumFn (f : List Byte) (s : State) : Host.Outcome State Fault Refusal := .next (returns (.cksum (cksum f)) s)

/-- decode (41_decoder.md R89) with the current `CFG`. -/
def execDecodeFn (f : List Byte) (s : State) : Host.Outcome State Fault Refusal :=
  whenLive s (returns (.outcome (decodeFrame s.par.hexLowerOk s.cfg f)) s)

/-- apply (42_bitmap.md R92): writes the cells of `GRID` whose value changes and nothing else, gives the counts. -/
def execApplyFn (payload : List Byte) (s : State) : Host.Outcome State Fault Refusal :=
  let a := applyPayload s.par.hexLowerOk s.cfg s.grid payload
  whenLive s (returns (.applied a.count a.hexErrs) { s with grid := a.grid })

/-- snapshot (42_bitmap.md R99): gives a copy of the grid. -/
def execSnapshotFn (s : State) : Host.Outcome State Fault Refusal := whenLive s (returns (.grid (snapshotOf s.grid)) s)

/-- DISPATCH (43_dispatcher.md R104), the reference machine. -/
def execDispatchFn (chunk : List Byte) (s : State) : Host.Outcome State Fault Refusal := whenLive s (dispatch chunk s)

end Sys2Proof.Machine
end

