-- ==== Sys2Proof/Machine/Receive.lean ====
section
/-! DEFINITION. The meanings of the operations that bring bytes to RX (byte_class, frame_field, RXBYTE: 43_dispatcher.md R101) and of
ENQ (R102). A byte class or a frame field run as an operation is the arrival of its bytes (notes/assumptions/7.md). -/

namespace Sys2Proof.Machine

/-- RXBYTE(b) (43_dispatcher.md R101). -/
def execRxByte (b : Byte) (s : State) : Host.Outcome State Fault Refusal := whenLive s (rxBytes [b] s)

/-- STX (30_encoding.md R56, 40_reassembler.md R71): the byte `0x02` arrives. -/
def execStx (s : State) : Host.Outcome State Fault Refusal := whenLive s (rxBytes [STX] s)

/-- ETX (30_encoding.md R56, 40_reassembler.md R71): the byte `0x03` arrives. -/
def execEtx (s : State) : Host.Outcome State Fault Refusal := whenLive s (rxBytes [ETX] s)

/-- OTHER (30_encoding.md R56, 40_reassembler.md R71): a byte that is neither marker arrives. -/
def execOther (b : Byte) (s : State) : Host.Outcome State Fault Refusal := whenLive s (rxBytes [b] s)

/-- FRAME_HEADER (30_encoding.md R50): start marker, command, address and big-endian resolution arrive. -/
def execFrameHeader (cmd addr : Byte) (res : Half) (s : State) : Host.Outcome State Fault Refusal :=
  whenLive s (rxBytes ([STX, cmd, addr] ++ halfBytes res) s)

/-- FRAME_PAYLOAD_PAIR (30_encoding.md R54): the two characters of a pair arrive, high digit first. -/
def execFramePayloadPair (h l : Byte) (s : State) : Host.Outcome State Fault Refusal := whenLive s (rxBytes [h, l] s)

/-- FRAME_TRAILER (30_encoding.md R55): end marker and the two checksum characters arrive. -/
def execFrameTrailer (h l : Byte) (s : State) : Host.Outcome State Fault Refusal := whenLive s (rxBytes [ETX, h, l] s)

/-- ENQ (43_dispatcher.md R102). -/
def execEnq (s : State) : Host.Outcome State Fault Refusal := whenLive s (enqueue s)

end Sys2Proof.Machine
end

