-- ==== Sys2Proof/Machine/Steps.lean ====
section
/-! DEFINITION. The meanings of INIT, APPLYQ, SNAPSHOT, SNAPRD and RDCOUNT (43_dispatcher.md R100, R103, R106 to R108). -/

namespace Sys2Proof.Machine

/-- INIT(rows, columns, address) (43_dispatcher.md R100): enabled always, also before the first INIT and in the fault
state; refused with a dimension of 0. -/
def execInit (rows columns : Word32) (address : Byte) (s : State) : Host.Outcome State Fault Refusal :=
  if rows = 0#32 ∨ columns = 0#32 then .refused .initZeroDimension else .next (initialise rows columns address s)

/-- APPLYQ (43_dispatcher.md R103). -/
def execApplyQ (s : State) : Host.Outcome State Fault Refusal := whenLive s (applyHead s)

/-- SNAPSHOT (43_dispatcher.md R106): `SNAP` is overwritten by a copy of the grid, which is also the value an observer gets
(00_scope.md R9 (c); notes/assumptions/3.md). -/
def execSnapshot (s : State) : Host.Outcome State Fault Refusal :=
  whenLive s (returns (.grid (snapshotOf s.grid)) { s with snap := some (snapshotOf s.grid) })

/-- SNAPRD(r, c) (43_dispatcher.md R107): `SNAP[r][c]`; refused without a snapshot or outside the grid. -/
def execSnapRd (r c : Word32) (s : State) : Host.Outcome State Fault Refusal :=
  match s.live, s.snap with
  | false, _ => .refused .beforeInit
  | true, none => .refused .snapReadBeforeSnapshot
  | true, some g =>
    if inGrid s.cfg r.toNat c.toNat then .next (returns (.bit (g.get r.toNat c.toNat)) s)
    else .refused .snapReadOutOfRange

/-- RDCOUNT (43_dispatcher.md R108): `UPDATED_COUNT`. -/
def execRdCount (s : State) : Host.Outcome State Fault Refusal := whenLive s (returns (.count s.updatedCount) s)

end Sys2Proof.Machine
end

