-- ==== Sys2Proof/Machine/Dispatch.lean ====
section
/-! DEFINITION. Each operation's meaning, one arm per constructor. -/

namespace Sys2Proof.Machine

def exec (i : Instr) (s : State) : Host.Outcome State Fault Refusal :=
  match i with
  | .stx => Sys2Proof.Machine.execStx s
  | .etx => Sys2Proof.Machine.execEtx s
  | .other b => Sys2Proof.Machine.execOther b s
  | .hex07 d => Sys2Proof.Machine.execHex07 d s
  | .hex89 d => Sys2Proof.Machine.execHex89 d s
  | .hexUpA => Sys2Proof.Machine.execHexUpA s
  | .hexUpBC d => Sys2Proof.Machine.execHexUpBC d s
  | .hexUpDE d => Sys2Proof.Machine.execHexUpDE d s
  | .hexUpF => Sys2Proof.Machine.execHexUpF s
  | .hexLoA => Sys2Proof.Machine.execHexLoA s
  | .hexLoBC d => Sys2Proof.Machine.execHexLoBC d s
  | .hexLoDE d => Sys2Proof.Machine.execHexLoDE d s
  | .hexLoF => Sys2Proof.Machine.execHexLoF s
  | .notHex c => Sys2Proof.Machine.execNotHex c s
  | .frameHeader cmd addr res => Sys2Proof.Machine.execFrameHeader cmd addr res s
  | .framePayloadPair h l => Sys2Proof.Machine.execFramePayloadPair h l s
  | .frameTrailer h l => Sys2Proof.Machine.execFrameTrailer h l s
  | .init rows columns address => Sys2Proof.Machine.execInit rows columns address s
  | .snapshot => Sys2Proof.Machine.execSnapshot s
  | .rxByte b => Sys2Proof.Machine.execRxByte b s
  | .enq => Sys2Proof.Machine.execEnq s
  | .applyQ => Sys2Proof.Machine.execApplyQ s
  | .snapRd r c => Sys2Proof.Machine.execSnapRd r c s
  | .rdCount => Sys2Proof.Machine.execRdCount s
  | .evtOk resWarn => Sys2Proof.Machine.execEvtOk resWarn s
  | .evtTooShort => Sys2Proof.Machine.execEvtTooShort s
  | .evtInvalidFraming => Sys2Proof.Machine.execEvtInvalidFraming s
  | .evtChecksumMismatch => Sys2Proof.Machine.execEvtChecksumMismatch s
  | .evtNotAddressedToUs => Sys2Proof.Machine.execEvtNotAddressedToUs s
  | .feedFn chunk => Sys2Proof.Machine.execFeedFn chunk s
  | .stepFn b => Sys2Proof.Machine.execStepFn b s
  | .hexvalFn c => Sys2Proof.Machine.execHexvalFn c s
  | .hexpairFn c0 c1 => Sys2Proof.Machine.execHexpairFn c0 c1 s
  | .cksumFn f => Sys2Proof.Machine.execCksumFn f s
  | .decodeFn f => Sys2Proof.Machine.execDecodeFn f s
  | .applyFn payload => Sys2Proof.Machine.execApplyFn payload s
  | .snapshotFn => Sys2Proof.Machine.execSnapshotFn s
  | .dispatchFn chunk => Sys2Proof.Machine.execDispatchFn chunk s

end Sys2Proof.Machine
end

