-- ==== Sys2Proof/Machine/Step.lean ====
section
/-! DEFINITION. One step of the machine: the script's next operation (notes/assumptions/1.md), or HFR's own next step where
the script has none to run. -/

namespace Sys2Proof.Machine

/-- With an empty script HFR's internal agents go on (43_dispatcher.md R109, R113). Otherwise the script's next operation
runs, except that bytes offered to a receiver that takes none stay where they are while the internal agents go on (R112,
notes/assumptions/5.md). -/
def step (s : State) : Host.Outcome State Fault Refusal :=
  if s.stim = [] then whenLive s (internalStep s)
  else
    match fetch s with
    | .error e => .refused (.badStimulus e)
    | .ok (i, rest) => if rxBlocked i s then .next (internalStep s) else exec i { s with stim := rest }

/-- `s` with a table word at the head of the script, where `step` fetches. -/
def State.withFetchWord (s : State) (nbits w : Nat) : State := placeWord s nbits w

end Sys2Proof.Machine
end

