-- ==== Sys2Proof/Machine/Ports.lean ====
section
/-! DEFINITION. What an observer of HFR sees (00_scope.md R9, 30_encoding.md R60): the output ports as functions of the state,
and the pulses of a transition. -/

namespace Sys2Proof.Machine

/-- `count_q`: the `UPDATED_COUNT` register, always readable (30_encoding.md R60). `rx_ready` is `rxReady`. -/
def countQ (s : State) : Word32 := s.updatedCount

/-- `fault_overflow` (30_encoding.md R60). -/
def faultOverflow (s : State) : Bool := s.fault.rxOverflow

/-- `snap_bit`: `SNAP[snap_row][snap_col]` (30_encoding.md R60), no value where SNAPRD is refused (43_dispatcher.md R107). -/
def snapBit (s : State) (row col : Word32) : Option Bool :=
  match s.snap with
  | none => none
  | some g => if inGrid s.cfg row.toNat col.toNat then some (g.get row.toNat col.toNat) else none

/-- The `evt_valid` pulses of a transition that is no INIT, each with its `evt_code` and `evt_res_warn`, in order
(60_exceptions.md R128). -/
def evtPulses (s t : State) : List (BitVec 3 × Bool) :=
  (t.evt.drop s.evt.length).map fun e => (eventCodeBits e.code, e.resWarn)

/-- The `upd_valid` pulses of a transition that is no INIT, each with its `upd_count` and `upd_hex_errs`, in order
(60_exceptions.md R128). -/
def updPulses (s t : State) : List (Word32 × Word32) :=
  (t.note.drop s.note.length).map fun n => (n.count, n.hexErrs)

/-- The `snap_done` pulse (30_encoding.md R60): a SNAPSHOT step has happened. -/
def snapDone (i : Instr) : Bool := i == .snapshot

/-- The values `PHASE` takes in one RXBYTE(b) taken by RX (10_state.md R14, 43_dispatcher.md R101): `FRAME_READY` and `DROPPED`
are passed through inside the step and never seen at rest. -/
def phaseTrace (b : Byte) (s : State) : List Phase :=
  match (stepByte s.pending b).2 with
  | none => [phase (rxTake b s)]
  | some fr =>
    match decodeFrame s.par.hexLowerOk s.cfg fr with
    | .ok _ => [.frameReady, .validUpdate]
    | _ => [.frameReady, .dropped, .awaitStart]

end Sys2Proof.Machine
end

