-- ==== Sys2Proof/Safety.lean ====
section
/-! DEFINITION. The terms claims about HFR use: buffers at rest and frames as FR cuts them, the invariants, the classes of
operations, quiescence, and runs of several operations. -/

namespace Sys2Proof.Machine

/-! ### The reassembler's shapes -/

/-- 10_state.md R13: the four shapes of `P` at rest: empty, or a start marker and, after the first end marker if there is
one, fewer than two bytes. -/
def atRest : List Byte → Bool
  | [] => true
  | b :: bs =>
    b == STX &&
      match find (b :: bs) ETX 1 with
      | none => true
      | some e => decide ((b :: bs).length - (e + 1) < trailerLen)

/-- 40_reassembler.md R75: the shape of a frame FR emits: start marker, a body without end marker, end marker, two bytes. -/
def CutFrame (f : List Byte) : Prop := ∃ body h l, f = [STX] ++ body ++ [ETX, h, l] ∧ ETX ∉ body

/-! ### Frames and payloads by their fields -/

/-- A frame written by its fields (30_encoding.md R50): byte 0, command, address, resolution, payload, byte `N-3`, trailer. -/
def frameOf (m cmd addr rh rl : Byte) (payload : List Byte) (e h l : Byte) : List Byte :=
  [m, cmd, addr, rh, rl] ++ payload ++ [e, h, l]

/-- The checksum of a frame's fields in closed form (41_decoder.md R84): `(2 - S) mod 256`. -/
def fieldChecksum (cmd addr rh rl : Byte) (payload : List Byte) : Byte :=
  BitVec.ofInt 8 (2 - (cmd.toNat + addr.toNat + rh.toNat + rl.toNat + byteSum payload : Nat))

/-- The decoded byte of pair `k` of a payload (30_encoding.md R54): none if the payload has no such pair or it is
malformed. -/
def pairValue (lowerOk : Bool) (payload : List Byte) (k : Nat) : Option Byte :=
  match payload[2 * k]?, payload[2 * k + 1]? with
  | some h, some l => hexpair lowerOk h l
  | _, _ => none

/-- The updates of the frames that decode `Ok`, in order. -/
def acceptedUpdates (lowerOk : Bool) (cfg : DisplayConfig) (frames : List (List Byte)) : List PixelUpdate :=
  frames.filterMap fun f =>
    match decodeFrame lowerOk cfg f with
    | .ok u => some u
    | _ => none

/-- What applying updates one after the other gives, each from the grid the one before left (43_dispatcher.md R104). -/
def applyAll (lowerOk : Bool) (cfg : DisplayConfig) : Grid → List PixelUpdate → List ApplyResult
  | _, [] => []
  | g, u :: us =>
    let a := applyPayload lowerOk cfg g u.bits
    a :: applyAll lowerOk cfg a.grid us

/-- How many cells of rows 0 to 7 and columns below `n` read differently in two grids. -/
def changedCells (n : Nat) (g g' : Grid) : Nat :=
  ((List.range n).map fun c => (List.range rowsPerByte).countP fun r => g.get r c != g'.get r c).sum

/-! ### Invariants -/

/-- A grid as HFR can hold it: canonical, inside the display (10_state.md R18), rows 0 to 7 only (42_bitmap.md R98). -/
def gridOk (cfg : DisplayConfig) (g : Grid) : Bool :=
  g.wf && g.all (fun x => inGrid cfg x.1 x.2) && g.all (fun x => decide (x.1 < rowsPerByte))

/-- What every operation of the table keeps, once there has been an INIT: a legal configuration (10_state.md R11), `P` at rest
(R13), `Q` within its capacity (R16), the grid and the snapshot as HFR can hold them. -/
def Inv (s : State) : Prop :=
  s.live = true →
    s.cfg.rows ≠ 0#32 ∧ s.cfg.columns ≠ 0#32 ∧ atRest s.pending = true ∧ s.queue.length ≤ s.par.queueCap ∧
    gridOk s.cfg s.grid = true ∧ ∀ g, s.snap = some g → gridOk s.cfg g = true

/-- What HFR's own steps keep besides: `P` is empty while an update is held (10_state.md R15) and within `PENDING_CAP` (R12);
in the fault state nothing is held and `P` is full (R21, 43_dispatcher.md R101). -/
def PipeInv (s : State) : Prop :=
  s.live = true →
    (s.handover ≠ none → s.pending = []) ∧
    exceedsCap s.par.pendingCap s.pending.length = false ∧
    (s.fault.rxOverflow = true → s.handover = none ∧ s.par.pendingCap = some s.pending.length)

/-- `UPDATED_COUNT` is the count of the last notification, or 0 if there has been none since INIT (10_state.md R19,
43_dispatcher.md R108). -/
def CountPublished (s : State) : Prop := s.updatedCount = (s.note.getLast?.map Notification.count).getD 0#32

/-! ### Classes of operations -/

/-- What sort of operation a row of the table is. -/
inductive OpKind where
  | rxByte
  | streamBytes
  | pure
  | init
  | enq
  | applyQ
  | snapshot
  | read
  | event
  | reassemblerCall
  | decodeCall
  | applyCall
  | snapshotCall
  | dispatchCall
deriving DecidableEq, Repr

/-- The sort of each operation. -/
def opKind : Instr → OpKind
  | .stx => .streamBytes
  | .etx => .streamBytes
  | .other _ => .streamBytes
  | .hex07 _ => .pure
  | .hex89 _ => .pure
  | .hexUpA => .pure
  | .hexUpBC _ => .pure
  | .hexUpDE _ => .pure
  | .hexUpF => .pure
  | .hexLoA => .pure
  | .hexLoBC _ => .pure
  | .hexLoDE _ => .pure
  | .hexLoF => .pure
  | .notHex _ => .pure
  | .frameHeader _ _ _ => .streamBytes
  | .framePayloadPair _ _ => .streamBytes
  | .frameTrailer _ _ => .streamBytes
  | .init _ _ _ => .init
  | .snapshot => .snapshot
  | .rxByte _ => .rxByte
  | .enq => .enq
  | .applyQ => .applyQ
  | .snapRd _ _ => .read
  | .rdCount => .read
  | .evtOk _ => .event
  | .evtTooShort => .event
  | .evtInvalidFraming => .event
  | .evtChecksumMismatch => .event
  | .evtNotAddressedToUs => .event
  | .feedFn _ => .reassemblerCall
  | .stepFn _ => .reassemblerCall
  | .hexvalFn _ => .pure
  | .hexpairFn _ _ => .pure
  | .cksumFn _ => .pure
  | .decodeFn _ => .decodeCall
  | .applyFn _ => .applyCall
  | .snapshotFn => .snapshotCall
  | .dispatchFn _ => .dispatchCall

/-- The reference calls that write `P` outside the steps of HFR: `feed`, `step`, `DISPATCH` (notes/assumptions/16.md). -/
def isReferenceCall (i : Instr) : Bool := opKind i == .reassemblerCall || opKind i == .dispatchCall

/-- The steps of 43_dispatcher.md R109 but INIT, as R111 lets a schedule have them. -/
def isPipelineStep (i : Instr) : Bool :=
  opKind i == .rxByte || opKind i == .enq || opKind i == .applyQ || opKind i == .snapshot || opKind i == .read

/-- The operations that read no state of HFR but a parameter: they have a meaning before the first INIT too
(notes/assumptions/12.md). -/
def readsNoState (i : Instr) : Bool := opKind i == .pure

/-- INIT. -/
def isInit (i : Instr) : Bool := opKind i == .init

/-- The operations that write the grid: INIT, APPLYQ and the calls `apply` and `DISPATCH` (10_state.md R10). -/
def writesGrid (i : Instr) : Bool :=
  opKind i == .init || opKind i == .applyQ || opKind i == .applyCall || opKind i == .dispatchCall

/-! ### Runs -/

/-- 43_dispatcher.md R110: RX holds nothing and WR has nothing to do. -/
def Quiescent (s : State) : Prop := s.handover = none ∧ s.queue = []

/-- Operations run in order, stopping at the first that has no next state. -/
def execAll : List Instr → State → Host.Outcome State Fault Refusal
  | [], s => .next s
  | i :: is, s =>
    match exec i s with
    | .next t => execAll is t
    | .fault r => .fault r
    | .refused r => .refused r

end Sys2Proof.Machine
end

