-- ==== Sys2Proof/Certificates/Slice0/Obligations.lean ====
section
/-! DEFINITION. Statements about HFR for the provers; OBLIGATIONS.json lists them. -/

open Sys2Proof Sys2Proof.Machine

/-! ### The machine's step and the encoding -/

/-- The script's next operation runs, with only the script moved past it; bytes that are no operation are refused. -/
def Obligations.ScriptOperationRuns : Prop :=
  (∀ (s : State) (i : Instr) (rest : List Byte), decode s.par.hexLowerOk s.stim = .ok (i, rest) →
    rxBlocked i s = false → step s = exec i { s with stim := rest }) ∧
  (∀ (s : State) (e : DecodeError), s.stim ≠ [] → decode s.par.hexLowerOk s.stim = .error e →
    step s = .refused (.badStimulus e))

/-- 43_dispatcher.md R101, R112 (notes/assumptions/5.md, 7.md): a byte offered to a receiver that takes none stays on offer; nothing of RX changes, only an
internal agent may move. -/
def Obligations.BlockedScriptWaitsForInternalAgents : Prop :=
  ∀ (s : State) (i : Instr) (rest : List Byte), s.live = true → decode s.par.hexLowerOk s.stim = .ok (i, rest) →
    wireBytes i ≠ [] → rxReady s = false →
    step s = .next (internalStep s) ∧ (internalStep s).stim = s.stim ∧ (internalStep s).pending = s.pending ∧
      (internalStep s).evt = s.evt ∧ (internalStep s).fault = s.fault ∧
      (s.fault.rxOverflow = true → s.handover = none → s.queue = [] → internalStep s = s)

/-- Table words read by the decoder (notes/assumptions/14.md). -/
def Obligations.TableWordsDecode : Prop :=
  decodeTableWord 16 0x02 = some .stx ∧ decodeTableWord 16 0x03 = some .etx ∧
  decodeTableWord 16 0x35 = some (.hex07 5#3) ∧ decodeTableWord 16 0x43 = some (.hexUpBC 1#1) ∧
  decodeTableWord 24 0x033730 = some (.frameTrailer 0x37#8 0x30#8) ∧
  decodeTableWord 40 0x02110100C0 = some (.frameHeader 0x11#8 0x01#8 0x00C0#16) ∧
  decodeTableWord 8 0x01 = some .snapshot ∧ decodeTableWord 8 0x04 = some .evtNotAddressedToUs ∧
  decodeTableWord 64 0x0000000700000002 = some (.snapRd 7#32 2#32)

/-- Every well-formed operation's bytes decode to it, whatever follows them and with every operand. -/
def Obligations.EncodedOperationDecodes : Prop :=
  ∀ (lowerOk : Bool) (i : Instr) (rest : List Byte), i.wellFormed lowerOk = true →
    decode lowerOk (encode i ++ rest) = .ok (i, rest)

/-- Whatever the decoder accepts is well formed, and it takes at least one byte. -/
def Obligations.DecodedOperationIsWellFormed : Prop :=
  ∀ (lowerOk : Bool) (bs rest : List Byte) (i : Instr), decode lowerOk bs = .ok (i, rest) →
    i.wellFormed lowerOk = true ∧ ∃ taken, taken ≠ [] ∧ bs = taken ++ rest

/-- 30_encoding.md R62: the selection vectors say when a step is enabled. -/
def Obligations.SelectionVectorsSayEnabled : Prop :=
  ∀ (s : State), s.queue.length ≤ s.par.queueCap →
    (rxVector s = 0b10#2 ↔ ∃ u, s.handover = some u ∧ s.queue.length < s.par.queueCap) ∧
    (wrVector s = 1#1 ↔ s.queue ≠ []) ∧
    (∀ rxValid, handshakeVector rxValid s = 0b11#2 ↔
      rxValid = true ∧ s.handover = none ∧ s.fault.rxOverflow = false)

/-! ### Hexadecimal text -/

/-- 30_encoding.md R57: each digit class gives `byte - base`, the lower-case ones only with `HEX_LOWER_OK`, every other byte
no digit; that the operation of a class returns this value is the model's reading (notes/assumptions/8.md). -/
def Obligations.DigitClassesGiveTheirValues : Prop :=
  ∀ (s : State),
    (∀ d, exec (.hex07 d) s = .next { s with result := .digit (some (d.setWidth 4)) }) ∧
    (∀ d, exec (.hex89 d) s = .next { s with result := .digit (some (8#4 + d.setWidth 4)) }) ∧
    exec .hexUpA s = .next { s with result := .digit (some 10#4) } ∧
    (∀ d, exec (.hexUpBC d) s = .next { s with result := .digit (some (11#4 + d.setWidth 4)) }) ∧
    (∀ d, exec (.hexUpDE d) s = .next { s with result := .digit (some (13#4 + d.setWidth 4)) }) ∧
    exec .hexUpF s = .next { s with result := .digit (some 15#4) } ∧
    exec .hexLoA s = .next { s with result := .digit (if s.par.hexLowerOk then some 10#4 else none) } ∧
    (∀ d, exec (.hexLoBC d) s =
      .next { s with result := .digit (if s.par.hexLowerOk then some (11#4 + d.setWidth 4) else none) }) ∧
    (∀ d, exec (.hexLoDE d) s =
      .next { s with result := .digit (if s.par.hexLowerOk then some (13#4 + d.setWidth 4) else none) }) ∧
    exec .hexLoF s = .next { s with result := .digit (if s.par.hexLowerOk then some 15#4 else none) } ∧
    (∀ c, matchesHexRow s.par.hexLowerOk c = false → exec (.notHex c) s = .next { s with result := .digit none })

/-- 30_encoding.md R57 against 41_decoder.md R80, on every byte: the class the table gives it, by the byte's number; `NOT_HEX`
exactly where `hexval` is none; the values in numbers; and what the operation of the class (notes/assumptions/8.md) and
`hexval` return. -/
def Obligations.DigitTableAgreesWithHexval : Prop :=
  ∀ (s : State) (c : Byte),
    ((decodeHexDigit s.par.hexLowerOk c = .notHex c ↔ hexval s.par.hexLowerOk c = none) ∧
      (∀ d, decodeHexDigit s.par.hexLowerOk c = .hex07 d ↔ c.toNat = 0x30 + d.toNat) ∧
      (∀ d, decodeHexDigit s.par.hexLowerOk c = .hex89 d ↔ c.toNat = 0x38 + d.toNat) ∧
      (decodeHexDigit s.par.hexLowerOk c = .hexUpA ↔ c.toNat = 0x41) ∧
      (∀ d, decodeHexDigit s.par.hexLowerOk c = .hexUpBC d ↔ c.toNat = 0x42 + d.toNat) ∧
      (∀ d, decodeHexDigit s.par.hexLowerOk c = .hexUpDE d ↔ c.toNat = 0x44 + d.toNat) ∧
      (decodeHexDigit s.par.hexLowerOk c = .hexUpF ↔ c.toNat = 0x46) ∧
      (decodeHexDigit s.par.hexLowerOk c = .hexLoA ↔ s.par.hexLowerOk = true ∧ c.toNat = 0x61) ∧
      (∀ d, decodeHexDigit s.par.hexLowerOk c = .hexLoBC d ↔ s.par.hexLowerOk = true ∧ c.toNat = 0x62 + d.toNat) ∧
      (∀ d, decodeHexDigit s.par.hexLowerOk c = .hexLoDE d ↔ s.par.hexLowerOk = true ∧ c.toNat = 0x64 + d.toNat) ∧
      (decodeHexDigit s.par.hexLowerOk c = .hexLoF ↔ s.par.hexLowerOk = true ∧ c.toNat = 0x66)) ∧
    (∀ v : BitVec 4, hexval s.par.hexLowerOk c = some v ↔
      (v.toNat ≤ 9 ∧ c.toNat = 0x30 + v.toNat) ∨ (10 ≤ v.toNat ∧ c.toNat = 0x37 + v.toNat) ∨
        (s.par.hexLowerOk = true ∧ 10 ≤ v.toNat ∧ c.toNat = 0x57 + v.toNat)) ∧
    exec (decodeHexDigit s.par.hexLowerOk c) s = .next { s with result := .digit (hexval s.par.hexLowerOk c) } ∧
    exec (.hexvalFn c) s = .next { s with result := .digit (hexval s.par.hexLowerOk c) }

/-- 41_decoder.md R80, in numbers. -/
def Obligations.HexvalByRange : Prop :=
  ∀ (s : State) (c : Byte), exec (.hexvalFn c) s = .next { s with result := .digit (
    if 0x30 ≤ c.toNat ∧ c.toNat ≤ 0x39 then some (BitVec.ofNat 4 (c.toNat - 0x30))
    else if 0x41 ≤ c.toNat ∧ c.toNat ≤ 0x46 then some (BitVec.ofNat 4 (c.toNat - 0x37))
    else if s.par.hexLowerOk = true ∧ 0x61 ≤ c.toNat ∧ c.toNat ≤ 0x66 then some (BitVec.ofNat 4 (c.toNat - 0x57))
    else none) }

/-- 41_decoder.md R81, 20_memory.md R35: high digit first, one bad digit spoils the pair. -/
def Obligations.HexpairHighDigitFirst : Prop :=
  ∀ (s : State) (c0 c1 : Byte),
    (∀ h l, hexval s.par.hexLowerOk c0 = some h → hexval s.par.hexLowerOk c1 = some l →
      ∃ v : Byte, v.toNat = 16 * h.toNat + l.toNat ∧
        exec (.hexpairFn c0 c1) s = .next { s with result := .pair (some v) }) ∧
    (hexval s.par.hexLowerOk c0 = none ∨ hexval s.par.hexLowerOk c1 = none →
      exec (.hexpairFn c0 c1) s = .next { s with result := .pair none })

/-! ### The decoder -/

/-- 41_decoder.md R84: command, address, resolution and payload are summed, markers and trailer are not, and the result is
`(2 - S) mod 256`, for a byte sequence of any length; the state is otherwise unchanged. -/
def Obligations.ChecksumClosedForm : Prop :=
  (∀ (s : State) (m cmd addr rh rl : Byte) (payload : List Byte) (e h l : Byte),
    exec (.cksumFn (frameOf m cmd addr rh rl payload e h l)) s =
      .next { s with result := .cksum (fieldChecksum cmd addr rh rl payload) }) ∧
  (∀ (s : State) (f : List Byte), exec (.cksumFn f) s = .next { s with
    result := .cksum (BitVec.ofInt 8 (2 - (((f.take (f.length - 3)).drop 1).map BitVec.toNat).sum)) })

/-- 41_decoder.md R82: length first: exactly the byte sequences shorter than 9 are too short. -/
def Obligations.ShortFrameIsTooShort : Prop :=
  ∀ (s : State) (f : List Byte), s.live = true →
    (f.length < 9 → exec (.decodeFn f) s = .next { s with result := .outcome .tooShort }) ∧
    (9 ≤ f.length → ∃ r, exec (.decodeFn f) s = .next { s with result := .outcome r } ∧ r ≠ .tooShort)

/-- 41_decoder.md R83: then the markers, bytes 0 and `N-3` and no others. -/
def Obligations.WrongMarkerIsInvalidFraming : Prop :=
  ∀ (s : State) (m cmd addr rh rl : Byte) (payload : List Byte) (e h l : Byte), s.live = true → payload ≠ [] →
    ∃ r, exec (.decodeFn (frameOf m cmd addr rh rl payload e h l)) s = .next { s with result := .outcome r } ∧
      (r = .invalidFraming ↔ m ≠ 0x02#8 ∨ e ≠ 0x03#8)

/-- 41_decoder.md R85: then the checksum, unparsable characters included. -/
def Obligations.WrongTrailerIsChecksumMismatch : Prop :=
  ∀ (s : State) (cmd addr rh rl : Byte) (payload : List Byte) (h l : Byte), s.live = true → payload ≠ [] →
    ∃ r, exec (.decodeFn (frameOf 0x02#8 cmd addr rh rl payload 0x03#8 h l)) s =
        .next { s with result := .outcome r } ∧
      (r = .checksumMismatch ↔ hexpair s.par.hexLowerOk h l ≠ some (fieldChecksum cmd addr rh rl payload))

/-- 41_decoder.md R86: then the address, by plain equality. -/
def Obligations.ForeignAddressIsNotAddressedToUs : Prop :=
  ∀ (s : State) (cmd addr rh rl : Byte) (payload : List Byte) (h l : Byte), s.live = true → payload ≠ [] →
    hexpair s.par.hexLowerOk h l = some (fieldChecksum cmd addr rh rl payload) →
    ∃ r, exec (.decodeFn (frameOf 0x02#8 cmd addr rh rl payload 0x03#8 h l)) s =
        .next { s with result := .outcome r } ∧ (r = .notAddressedToUs ↔ addr ≠ s.cfg.address)

/-- 41_decoder.md R87 to R89: an accepted frame gives its update, with the resolution warning. -/
def Obligations.AcceptedFrameGivesItsUpdate : Prop :=
  ∀ (s : State) (cmd addr rh rl : Byte) (payload : List Byte) (h l : Byte), s.live = true → payload ≠ [] →
    hexpair s.par.hexLowerOk h l = some (fieldChecksum cmd addr rh rl payload) → addr = s.cfg.address →
    exec (.decodeFn (frameOf 0x02#8 cmd addr rh rl payload 0x03#8 h l)) s =
      .next { s with result := .outcome (.ok {
        address := addr
        resolution := BitVec.ofNat 16 (rh.toNat * 256 + rl.toNat)
        bits := payload
        resWarn := decide (rh.toNat * 256 + rl.toNat ≠ s.cfg.rows.toNat * s.cfg.columns.toNat / 8) }) }

/-- 41_decoder.md R85, 70_reset_and_hazards.md R147: any one summed byte of an accepted frame changed gives
`ChecksumMismatch`, for a frame given to `decode` directly. -/
def Obligations.OneByteChangedIsChecksumMismatch : Prop :=
  ∀ (s t : State) (pre post : List Byte) (x y h l : Byte) (u : PixelUpdate),
    exec (.decodeFn ([0x02#8] ++ pre ++ [x] ++ post ++ [0x03#8, h, l])) s = .next t → t.result = .outcome (.ok u) →
    y ≠ x →
    exec (.decodeFn ([0x02#8] ++ pre ++ [y] ++ post ++ [0x03#8, h, l])) s =
      .next { s with result := .outcome .checksumMismatch }

/-! ### The reassembler -/

/-- 40_reassembler.md R71: `step` on the four shapes of a buffer at rest, and its agreement with `feed` of one byte. -/
def Obligations.DetectorOnTheFourShapes : Prop :=
  (∀ (s : State) (b h : Byte) (body : List Byte), s.live = true → ETX ∉ body →
    (s.pending = [] → exec (.stepFn b) s =
      .next { s with pending := if b = STX then [STX] else [], result := .frame none }) ∧
    (s.pending = STX :: body → exec (.stepFn b) s =
      .next { s with pending := STX :: (body ++ [b]), result := .frame none }) ∧
    (s.pending = STX :: (body ++ [ETX]) → exec (.stepFn b) s =
      .next { s with pending := STX :: (body ++ [ETX, b]), result := .frame none }) ∧
    (s.pending = STX :: (body ++ [ETX, h]) → exec (.stepFn b) s =
      .next { s with pending := [], result := .frame (some (STX :: (body ++ [ETX, h, b]))) })) ∧
  (∀ (s : State) (b : Byte), s.live = true → atRest s.pending = true →
    ∃ p f, exec (.stepFn b) s = .next { s with pending := p, result := .frame f } ∧
      exec (.feedFn [b]) s = .next { s with pending := p, result := .frames f.toList })

/-- 40_reassembler.md R72: chunking does not matter, for the frames and for the buffer; the empty chunk changes nothing; and
`feed` of one byte more is `step`, then `feed` of the rest. -/
def Obligations.FeedIgnoresChunkBoundaries : Prop :=
  ∀ (s : State), s.live = true → atRest s.pending = true →
    exec (.feedFn []) s = .next { s with result := .frames [] } ∧
    (∀ (c1 c2 : List Byte), ∃ p1 f1 p2 f2,
      exec (.feedFn c1) s = .next { s with pending := p1, result := .frames f1 } ∧
      exec (.feedFn c2) { s with pending := p1, result := .frames f1 } =
        .next { s with pending := p2, result := .frames f2 } ∧
      exec (.feedFn (c1 ++ c2)) s = .next { s with pending := p2, result := .frames (f1 ++ f2) }) ∧
    (∀ (b : Byte) (rest : List Byte), ∃ p1 f p2 fs,
      exec (.stepFn b) s = .next { s with pending := p1, result := .frame f } ∧
      exec (.feedFn rest) { s with pending := p1, result := .frame f } =
        .next { s with pending := p2, result := .frames fs } ∧
      exec (.feedFn (b :: rest)) s = .next { s with pending := p2, result := .frames (f.toList ++ fs) })

/-- 40_reassembler.md R75: the shape of every frame FR emits, whatever the buffer was; so it never fails the marker check, and
the length check exactly up to 8 bytes. -/
def Obligations.EmittedFramesHaveTheirShape : Prop :=
  ∀ (s t : State) (chunk f : List Byte) (fs : List (List Byte)), exec (.feedFn chunk) s = .next t →
    t.result = .frames fs → f ∈ fs →
    CutFrame f ∧ 4 ≤ f.length ∧ decodeFrame s.par.hexLowerOk s.cfg f ≠ .invalidFraming ∧
      (decodeFrame s.par.hexLowerOk s.cfg f = .tooShort ↔ f.length ≤ 8)

/-- 10_state.md R12, R13: after `feed` the buffer is at rest: it holds no complete frame. -/
def Obligations.FeedLeavesBufferAtRest : Prop :=
  ∀ (s : State) (chunk : List Byte), s.live = true →
    ∃ p fs, exec (.feedFn chunk) s = .next { s with pending := p, result := .frames fs } ∧ atRest p = true

/-- 40_reassembler.md R70: `feed` on every form the buffer and the chunk together can have: no start marker: all discarded;
no end marker after it or fewer than two bytes after that: kept from the start marker on; otherwise the first frame is cut
and the rest is fed on from an empty buffer. -/
def Obligations.FeedCutsTheFirstFrame : Prop :=
  ∀ (s : State) (chunk garbage body : List Byte), s.live = true → STX ∉ garbage → ETX ∉ body →
    (s.pending ++ chunk = garbage → exec (.feedFn chunk) s = .next { s with pending := [], result := .frames [] }) ∧
    (s.pending ++ chunk = garbage ++ [STX] ++ body →
      exec (.feedFn chunk) s = .next { s with pending := [STX] ++ body, result := .frames [] }) ∧
    (∀ trailer : List Byte, trailer.length < 2 → s.pending ++ chunk = garbage ++ [STX] ++ body ++ [ETX] ++ trailer →
      exec (.feedFn chunk) s = .next { s with pending := [STX] ++ body ++ [ETX] ++ trailer, result := .frames [] }) ∧
    (∀ (h l : Byte) (rest : List Byte), s.pending ++ chunk = garbage ++ [STX] ++ body ++ [ETX, h, l] ++ rest →
      ∃ p fs, exec (.feedFn rest) { s with pending := [] } = .next { s with pending := p, result := .frames fs } ∧
        exec (.feedFn chunk) s =
          .next { s with pending := p, result := .frames (([STX] ++ body ++ [ETX, h, l]) :: fs) })

/-! ### Reception -/

/-- 43_dispatcher.md R101: one byte taken by RX, by RXBYTE or by a byte class, whose run is the arrival of its byte
(notes/assumptions/7.md). -/
def Obligations.TakenByteFollowsDetectorAndDecoder : Prop :=
  ∀ (s : State) (i : Instr) (b : Byte), s.live = true → s.handover = none → s.fault.rxOverflow = false →
    wireBytes i = [b] →
    (∀ p, stepByte s.pending b = (p, none) →
      exec i s = .next (if exceedsCap s.par.pendingCap p.length = true then { s with fault := { rxOverflow := true } }
        else { s with pending := p })) ∧
    (∀ p fr, stepByte s.pending b = (p, some fr) →
      exec i s = .next { s with
        pending := []
        evt := s.evt ++ [eventOf (decodeFrame s.par.hexLowerOk s.cfg fr)]
        handover := match decodeFrame s.par.hexLowerOk s.cfg fr with | .ok u => some u | _ => none })

/-- 40_reassembler.md R73: a byte that is no start marker and meets an empty buffer changes nothing at all, whether it comes
by RXBYTE or by a byte class, whose run is the arrival of its byte (R101, notes/assumptions/7.md). -/
def Obligations.GarbageByteChangesNothing : Prop :=
  ∀ (s : State) (i : Instr) (b : Byte), s.live = true → s.handover = none → s.fault.rxOverflow = false →
    wireBytes i = [b] → s.pending = [] → b ≠ 0x02#8 → exec i s = .next s

/-- 60_exceptions.md R124: what a drop or an ignore does: `P` is empty, one event, nothing else, and RX awaits a start
marker; the frame's last byte comes by RXBYTE or by a byte class, whose run is the arrival of its byte (R101,
notes/assumptions/7.md). -/
def Obligations.DropAppendsOneEventOnly : Prop :=
  ∀ (s : State) (i : Instr) (body : List Byte) (h l : Byte) (r : DecodeOutcome), s.live = true → s.handover = none →
    s.fault.rxOverflow = false → wireBytes i = [l] → ETX ∉ body → s.pending = STX :: (body ++ [ETX, h]) →
    decodeFrame s.par.hexLowerOk s.cfg (STX :: (body ++ [ETX, h, l])) = r → (∀ u, r ≠ .ok u) →
    exec i s = .next { s with pending := [], evt := s.evt ++ [{ code := eventCode r, resWarn := false }] } ∧
      phase { s with pending := [], evt := s.evt ++ [{ code := eventCode r, resWarn := false }] } = .awaitStart

/-- 10_state.md R21: the overflow bit is set by a byte that would leave more than `PENDING_CAP` at rest, only INIT clears it,
RX takes nothing while it is set, and with `INF` it is never set; bytes come by RXBYTE or by the byte classes and frame
fields, whose run is the arrival of their bytes (R101, notes/assumptions/7.md). -/
def Obligations.OverflowIsStickyAndStopsRx : Prop :=
  (∀ (s : State) (i : Instr) (b : Byte) (p : List Byte) (cap : Nat), s.live = true → s.handover = none →
    s.fault.rxOverflow = false → wireBytes i = [b] → s.par.pendingCap = some cap → stepByte s.pending b = (p, none) →
    cap < p.length → exec i s = .next { s with fault := { rxOverflow := true } }) ∧
  (∀ (s t : State) (i : Instr), exec i s = .next t → isInit i = false → s.fault.rxOverflow = true →
    t.fault.rxOverflow = true ∧
      (wireBytes i ≠ [] → t.pending = s.pending ∧ t.handover = s.handover ∧ t.evt = s.evt)) ∧
  (∀ (s t : State) (i : Instr), exec i s = .next t → isInit i = true → t.fault.rxOverflow = false) ∧
  (∀ (s t : State) (i : Instr), exec i s = .next t → isInit i = false → s.par.pendingCap = none → t.fault = s.fault)

/-- 43_dispatcher.md R112: bytes offered while `rx_ready` is 0 stay on offer, and nothing else changes (the model's form of
the transport's duty, notes/assumptions/5.md; byte classes and frame fields bring bytes as RXBYTE does, notes/assumptions/7.md). -/
def Obligations.RefusedBytesStayOnOffer : Prop :=
  ∀ (s : State) (i : Instr), s.live = true → wireBytes i ≠ [] → (s.handover ≠ none ∨ s.fault.rxOverflow = true) →
    exec i s = .next { s with stim := (wireBytes i).flatMap (fun b => encode (.rxByte b)) ++ s.stim }

/-- 30_encoding.md R50, 43_dispatcher.md R101, R112: an operation that brings bytes (a frame field, a byte class, RXBYTE:
notes/assumptions/7.md) is RXBYTE of each of them in turn, as far as RX is ready; where RX stops being ready inside the
field (an update held, an overflow), the bytes it has not taken go back on offer (notes/assumptions/5.md), and nothing else
happens to them. `t.stim = s.stim` says that RX took every byte of `taken`. -/
def Obligations.FieldBytesArriveInOrder : Prop :=
  ∀ (s : State) (i : Instr), s.live = true → wireBytes i ≠ [] →
    ∃ (taken rest : List Byte) (t : State), wireBytes i = taken ++ rest ∧
      execAll (taken.map .rxByte) s = .next t ∧ t.stim = s.stim ∧
      (rest = [] ∨ t.handover ≠ none ∨ t.fault.rxOverflow = true) ∧
      exec i s = .next { t with stim := rest.flatMap (fun b => encode (.rxByte b)) ++ s.stim }

/-- 30_encoding.md R50: a header without `0x03` in command and address lies in the empty buffer as it stood on the wire
(FRAME_HEADER is the arrival of its bytes, each as an RXBYTE: R101, notes/assumptions/7.md). -/
def Obligations.HeaderIsBuffered : Prop :=
  ∀ (s : State) (cmd addr : Byte) (res : Half), s.live = true → s.handover = none → s.fault.rxOverflow = false →
    s.pending = [] → cmd ≠ 0x03#8 → addr ≠ 0x03#8 → exceedsCap s.par.pendingCap 5 = false →
    ∃ rh rl : Byte, rh.toNat * 256 + rl.toNat = res.toNat ∧
      exec (.frameHeader cmd addr res) s = .next { s with pending := [0x02#8, cmd, addr, rh, rl] }

/-- 70_reset_and_hazards.md R143: a `0x03` in the command or the address cuts the frame there; the cut frame is `TooShort` and
what follows it is judged afresh (FRAME_HEADER is the arrival of its bytes: R101, notes/assumptions/7.md). -/
def Obligations.EtxInHeaderCutsTheFrame : Prop :=
  ∀ (s : State) (cmd addr : Byte) (res : Half), s.live = true → s.handover = none → s.fault.rxOverflow = false →
    s.pending = [] → exceedsCap s.par.pendingCap 5 = false →
    (cmd = 0x03#8 → exec (.frameHeader cmd addr res) s = .next { s with
      evt := s.evt ++ [{ code := .tooShort, resWarn := false }]
      pending := if res.toNat % 256 = 0x02 then [0x02#8] else [] }) ∧
    (cmd ≠ 0x03#8 → addr = 0x03#8 → exec (.frameHeader cmd addr res) s = .next { s with
      evt := s.evt ++ [{ code := .tooShort, resWarn := false }] })

/-- 30_encoding.md R54, 40_reassembler.md R78: inside a body a pair is appended as it stands, whatever its bytes
(FRAME_PAYLOAD_PAIR is the arrival of its bytes: R101, notes/assumptions/7.md). -/
def Obligations.PairIsBuffered : Prop :=
  ∀ (s : State) (body : List Byte) (h l : Byte), s.live = true → s.handover = none → s.fault.rxOverflow = false →
    s.pending = STX :: body → ETX ∉ body → exceedsCap s.par.pendingCap (body.length + 3) = false →
    exec (.framePayloadPair h l) s = .next { s with pending := STX :: (body ++ [h, l]) }

/-- 30_encoding.md R50, R55: the trailer ends the body; the frame is decoded and its outcome settled (FRAME_TRAILER is
the arrival of its bytes: R101, notes/assumptions/7.md). -/
def Obligations.TrailerCompletesTheFrame : Prop :=
  ∀ (s : State) (body : List Byte) (h l : Byte) (r : DecodeOutcome), s.live = true → s.handover = none →
    s.fault.rxOverflow = false → s.pending = STX :: body → ETX ∉ body →
    exceedsCap s.par.pendingCap (body.length + 3) = false →
    decodeFrame s.par.hexLowerOk s.cfg (STX :: (body ++ [ETX, h, l])) = r →
    exec (.frameTrailer h l) s = .next { s with
      pending := []
      evt := s.evt ++ [eventOf r]
      handover := match r with | .ok u => some u | _ => none }

/-- 43_dispatcher.md R101: a whole frame, byte by byte, into a ready and empty receiver: one event, and the update held if the
outcome is `Ok`. The longest frame has `PENDING_CAP + 1` bytes. -/
def Obligations.WholeFrameIsTakenByteByByte : Prop :=
  ∀ (s : State) (body : List Byte) (h l : Byte) (r : DecodeOutcome), s.live = true → s.handover = none →
    s.fault.rxOverflow = false → s.pending = [] → ETX ∉ body →
    exceedsCap s.par.pendingCap (body.length + 3) = false →
    decodeFrame s.par.hexLowerOk s.cfg (STX :: (body ++ [ETX, h, l])) = r →
    execAll ((STX :: (body ++ [ETX, h, l])).map .rxByte) s = .next { s with
      evt := s.evt ++ [eventOf r]
      handover := match r with | .ok u => some u | _ => none }

/-! ### The other steps -/

/-- 43_dispatcher.md R100: INIT gives every item its reset value, from every state; a dimension of 0 is refused. -/
def Obligations.InitResetsEverything : Prop :=
  ∀ (s : State) (rows columns : Word32) (address : Byte),
    (rows.toNat > 0 → columns.toNat > 0 → exec (.init rows columns address) s = .next {
      par := s.par, live := true, cfg := { rows := rows, columns := columns, address := address }, pending := [],
      handover := none, queue := [], grid := [], updatedCount := 0#32, snap := none, fault := { rxOverflow := false },
      evt := [], note := [], result := .none, stim := s.stim, draws := s.draws }) ∧
    (rows.toNat = 0 ∨ columns.toNat = 0 → exec (.init rows columns address) s = .refused .initZeroDimension)

/-- 70_reset_and_hazards.md R140: before the first INIT every operation that touches HFR's state is refused, and so is a step
of the internal agents. -/
def Obligations.NothingHasAMeaningBeforeInit : Prop :=
  (∀ (s : State) (i : Instr), s.live = false → isInit i = false → readsNoState i = false →
    exec i s = .refused .beforeInit) ∧
  (∀ (s : State), s.live = false → s.stim = [] → step s = .refused .beforeInit)

/-- 43_dispatcher.md R102. -/
def Obligations.EnqMovesTheHeldUpdate : Prop :=
  ∀ (s : State) (u : PixelUpdate), s.live = true → s.handover = some u → s.queue.length < s.par.queueCap →
    exec .enq s = .next { s with queue := s.queue ++ [u], handover := none }

/-- Where ENQ or APPLYQ is not enabled its agent has no step: the state stays (the model's choice,
notes/assumptions/6.md). -/
def Obligations.DisabledStepsWait : Prop :=
  ∀ (s : State), s.live = true →
    (s.handover = none ∨ s.par.queueCap ≤ s.queue.length → exec .enq s = .next s) ∧
    (s.queue = [] → exec .applyQ s = .next s)

/-- 43_dispatcher.md R103: the head of the queue is applied, the count published, one notification sent; `hex_errs` is the
count of malformed pairs where that fits 32 bits. -/
def Obligations.ApplyqAppliesTheHead : Prop :=
  ∀ (s : State) (u : PixelUpdate) (rest : List PixelUpdate), s.live = true → s.queue = u :: rest →
    ∃ errs : Word32,
      ((applyPayload s.par.hexLowerOk s.cfg s.grid u.bits).hexErrs < 2 ^ 32 →
        errs.toNat = (applyPayload s.par.hexLowerOk s.cfg s.grid u.bits).hexErrs) ∧
      exec .applyQ s = .next { s with
        queue := rest
        grid := (applyPayload s.par.hexLowerOk s.cfg s.grid u.bits).grid
        updatedCount := (applyPayload s.par.hexLowerOk s.cfg s.grid u.bits).count
        note := s.note ++ [{ count := (applyPayload s.par.hexLowerOk s.cfg s.grid u.bits).count, hexErrs := errs }]
        draws := s.draws + 1 }

/-- 43_dispatcher.md R106, 42_bitmap.md R99: SNAPSHOT copies the grid into `SNAP`; `snapshot` gives the copy and writes nothing
else; either is the value an observer gets. -/
def Obligations.SnapshotCopiesTheGrid : Prop :=
  ∀ (s : State), s.live = true →
    exec .snapshot s = .next { s with snap := some s.grid, result := .grid s.grid } ∧
    exec .snapshotFn s = .next { s with result := .grid s.grid }

/-- 43_dispatcher.md R107: SNAPRD reads a cell of the shadow, and is refused without one or outside the grid. -/
def Obligations.SnaprdReadsTheShadow : Prop :=
  ∀ (s : State) (r c : Word32), s.live = true →
    (∀ g, s.snap = some g → r.toNat < s.cfg.rows.toNat → c.toNat < s.cfg.columns.toNat →
      exec (.snapRd r c) s = .next { s with result := .bit (g.get r.toNat c.toNat) }) ∧
    (∀ g, s.snap = some g → s.cfg.rows.toNat ≤ r.toNat ∨ s.cfg.columns.toNat ≤ c.toNat →
      exec (.snapRd r c) s = .refused .snapReadOutOfRange) ∧
    (s.snap = none → exec (.snapRd r c) s = .refused .snapReadBeforeSnapshot)

/-- 43_dispatcher.md R108, 10_state.md R19: RDCOUNT returns `UPDATED_COUNT`, the count of the last completed `apply` that was
notified, or 0 if none since INIT: every operation, INIT included, and every step keeps `UPDATED_COUNT` equal to it, and INIT
makes it so from any state. -/
def Obligations.RdcountReturnsTheLastCount : Prop :=
  (∀ (s : State), s.live = true → exec .rdCount s = .next { s with result := .count s.updatedCount }) ∧
  (∀ (s : State), s.live = true → CountPublished s →
    exec .rdCount s = .next { s with result := .count ((s.note.getLast?.map Notification.count).getD 0#32) }) ∧
  (∀ (s t : State) (i : Instr), CountPublished s → exec i s = .next t → CountPublished t) ∧
  (∀ (s t : State), CountPublished s → step s = .next t → CountPublished t) ∧
  (∀ (s t : State) (i : Instr), isInit i = true → exec i s = .next t →
    CountPublished t ∧ t.note = [] ∧ t.updatedCount = 0#32) ∧
  (∀ (s t : State) (u : PixelUpdate) (rest : List PixelUpdate), s.queue = u :: rest → exec .applyQ s = .next t →
    ∃ n, exec .rdCount t = .next { t with result := .count n } ∧ t.note.getLast?.map Notification.count = some n)

/-- 20_memory.md R41: reads change nothing but `SNAP`, and repeating one gives the same value again; `decode` is a function of
the frame and `CFG` (and of the parameter `HEX_LOWER_OK`). -/
def Obligations.ReadsHaveNoSideEffects : Prop :=
  (∀ (s t : State) (i : Instr), i = .snapshot ∨ i = .rdCount ∨ (∃ r c, i = .snapRd r c) → exec i s = .next t →
    t = { s with snap := t.snap, result := t.result } ∧ (i ≠ .snapshot → t.snap = s.snap) ∧ exec i t = .next t) ∧
  (∀ (s s' t t' : State) (f : List Byte), exec (.decodeFn f) s = .next t → exec (.decodeFn f) s' = .next t' →
    s.cfg = s'.cfg → s.par = s'.par → t = { s with result := t.result } ∧ t.result = t'.result)

/-! ### The bitmap -/

/-- 42_bitmap.md R91 to R95: after `apply` a cell of rows 0 to 7 inside the display whose column has a well-formed pair holds
that pair's bit, most significant bit first; every other cell is as it was; nothing but the grid is written. -/
def Obligations.ApplyWritesExactlyItsCells : Prop :=
  ∀ (s : State) (payload : List Byte), s.live = true →
    ∃ (g : Grid) (n : Word32) (errs : Nat),
      exec (.applyFn payload) s = .next { s with grid := g, result := .applied n errs } ∧
      ∀ r c, g.get r c =
        match pairValue s.par.hexLowerOk payload c with
        | some v =>
          if r < 8 ∧ r < s.cfg.rows.toNat ∧ c < s.cfg.columns.toNat then decide (v &&& (1#8 <<< (7 - r)) ≠ 0#8)
          else s.grid.get r c
        | none => s.grid.get r c

/-- 42_bitmap.md R92, R97, R93: the count is the number of cells that changed, modulo 2^32, within its bound; `hex_errs` is the
number of malformed pairs of the whole payload. -/
def Obligations.ApplyCountsChangedCells : Prop :=
  ∀ (s t : State) (payload : List Byte), exec (.applyFn payload) s = .next t →
    t.result = .applied (BitVec.ofNat 32 (changedCells (payload.length / 2) s.grid t.grid))
      ((List.range (payload.length / 2)).countP fun k => (pairValue s.par.hexLowerOk payload k).isNone) ∧
    changedCells (payload.length / 2) s.grid t.grid ≤
      min s.cfg.rows.toNat 8 * min s.cfg.columns.toNat (payload.length / 2)

/-- 42_bitmap.md R96: the same payload again changes nothing and counts 0. -/
def Obligations.ApplyIsIdempotent : Prop :=
  ∀ (s t : State) (payload : List Byte), exec (.applyFn payload) s = .next t →
    ∃ n errs, t.result = .applied n errs ∧
      exec (.applyFn payload) t = .next { t with result := .applied 0#32 errs }

/-- 42_bitmap.md R98: no operation but INIT ever changes a cell of row 8 or beyond, and INIT sets it to 0. -/
def Obligations.RowsFromEightNeverChange : Prop :=
  ∀ (s t : State) (i : Instr) (r c : Nat), exec i s = .next t → 8 ≤ r →
    t.grid.get r c = if isInit i = true then false else s.grid.get r c

/-! ### Events and the reference machine -/

/-- 60_exceptions.md R120, R122: each event row appends its event. -/
def Obligations.EventRowsAppendTheirEvent : Prop :=
  ∀ (s : State), s.live = true →
    (∀ w, exec (.evtOk w) s = .next { s with evt := s.evt ++ [{ code := .ok, resWarn := w }] }) ∧
    exec .evtTooShort s = .next { s with evt := s.evt ++ [{ code := .tooShort, resWarn := false }] } ∧
    exec .evtInvalidFraming s = .next { s with evt := s.evt ++ [{ code := .invalidFraming, resWarn := false }] } ∧
    exec .evtChecksumMismatch s = .next { s with evt := s.evt ++ [{ code := .checksumMismatch, resWarn := false }] } ∧
    exec .evtNotAddressedToUs s = .next { s with evt := s.evt ++ [{ code := .notAddressedToUs, resWarn := false }] }

/-- 43_dispatcher.md R104: the reference machine, all frames of a chunk: one event a frame in order, the accepted updates
applied in order, each notified with the count and the malformed pairs of its own `apply` (where these fit 32 bits), the last
grid and the last count published, nothing else written. -/
def Obligations.DispatchRunsItsFramesInOrder : Prop :=
  ∀ (s : State) (chunk p : List Byte) (fs : List (List Byte)) (results : List ApplyResult), s.live = true →
    feed s.pending chunk = (p, fs) →
    applyAll s.par.hexLowerOk s.cfg s.grid (acceptedUpdates s.par.hexLowerOk s.cfg fs) = results →
    ∃ (t : State) (ns : List Notification), exec (.dispatchFn chunk) s = .next t ∧
      t = { s with
        pending := p
        evt := s.evt ++ fs.map (fun f => eventOf (decodeFrame s.par.hexLowerOk s.cfg f))
        grid := (results.getLast?.map ApplyResult.grid).getD s.grid
        updatedCount := (results.getLast?.map ApplyResult.count).getD s.updatedCount
        note := s.note ++ ns
        draws := t.draws } ∧
      results.length = (acceptedUpdates s.par.hexLowerOk s.cfg fs).length ∧
      List.Forall₂ (fun (a : ApplyResult) (n : Notification) =>
        n.count = a.count ∧ (a.hexErrs < 2 ^ 32 → n.hexErrs.toNat = a.hexErrs)) results ns

/-- 43_dispatcher.md R111: the reference machine does not see how its stream is cut. -/
def Obligations.DispatchIgnoresChunkBoundaries : Prop :=
  ∀ (s : State) (c1 c2 : List Byte), s.live = true → atRest s.pending = true →
    ∃ t1 t2, exec (.dispatchFn c1) s = .next t1 ∧ exec (.dispatchFn c2) t1 = .next t2 ∧
      exec (.dispatchFn (c1 ++ c2)) s = .next t2

/-- 43_dispatcher.md R111: every schedule of the pipelined steps in which every offered byte is taken, no overflow happens and
which is over at its end leaves what the reference machine leaves for the same stream. -/
def Obligations.PipelineAgreesWithDispatch : Prop :=
  ∀ (s t : State) (schedule : List Instr), s.live = true → atRest s.pending = true → Quiescent s →
    (∀ i ∈ schedule, isPipelineStep i = true) → execAll schedule s = .next t → t.stim = s.stim →
    t.fault.rxOverflow = false → Quiescent t →
    ∃ d, exec (.dispatchFn (schedule.flatMap wireBytes)) s = .next d ∧ d.evt = t.evt ∧ d.note = t.note ∧
      d.grid = t.grid ∧ d.updatedCount = t.updatedCount ∧ d.pending = t.pending

/-! ### The whole machine -/

/-- 10_state.md R25: INIT of any state with the reference parameters and an empty script gives the reset state, which meets the
invariants. The configuration of the reset state is the model's choice (notes/assumptions/11.md). -/
def Obligations.ResetIsInitAndMeetsInvariants : Prop :=
  (∀ (s : State), s.par = Config.reference → s.stim = [] → s.draws = 0 →
    exec (.init 16#32 96#32 0x01#8) s = .next State.reset) ∧
  Inv State.reset ∧ PipeInv State.reset ∧ phase State.reset = .awaitStart

/-- Every step of the machine, from every state, keeps a legal configuration, a buffer at rest, a bounded queue and grids as
HFR can hold them (10_state.md R11, R13, R16, R18; 42_bitmap.md R98). -/
def Obligations.StepKeepsInvariant : Prop :=
  ∀ (s t : State), Inv s → step s = .next t → Inv t

/-- Every operation but the three reference calls that write `P` keeps: `P` empty while an update is held (10_state.md R15),
`P` within `PENDING_CAP` (R12), and in the fault state nothing held and `P` full (R21). -/
def Obligations.OperationsKeepPipelineInvariant : Prop :=
  ∀ (s t : State) (i : Instr), Inv s → PipeInv s → isReferenceCall i = false → exec i s = .next t → PipeInv t

/-- 10_state.md R10, 60_exceptions.md R129: every item of state is written by its owner only. -/
def Obligations.OnlyOwnersWrite : Prop :=
  ∀ (s t : State) (i : Instr), exec i s = .next t →
    t.par = s.par ∧
    (isInit i = false →
      t.cfg = s.cfg ∧ t.live = s.live ∧
      (wireBytes i = [] → isReferenceCall i = false → t.pending = s.pending) ∧
      (wireBytes i = [] → i ≠ .enq → t.handover = s.handover) ∧
      (i ≠ .enq → i ≠ .applyQ → t.queue = s.queue) ∧
      (writesGrid i = false → t.grid = s.grid) ∧
      (i ≠ .applyQ → (∀ c, i ≠ .dispatchFn c) → t.updatedCount = s.updatedCount ∧ t.note = s.note) ∧
      (i ≠ .snapshot → t.snap = s.snap) ∧
      (wireBytes i = [] → t.fault = s.fault ∧ t.stim = s.stim) ∧
      (wireBytes i = [] → opKind i ≠ .event → (∀ c, i ≠ .dispatchFn c) → t.evt = s.evt) ∧
      ∃ es ns, t.evt = s.evt ++ es ∧ t.note = s.note ++ ns)

/-- 43_dispatcher.md R113, R110: with nothing to do but its own steps HFR comes to rest: after one step per waiting update and
one more for a held one it is quiescent, and every waiting update has been notified. -/
def Obligations.InternalAgentsDrainTheQueue : Prop :=
  ∀ (s : State), s.live = true → s.stim = [] → 1 ≤ s.par.queueCap →
    ∃ t, Host.Core.run Sys2Proof.core (s.queue.length + 2) s = .next t ∧ Quiescent t ∧
      t.note.length = s.note.length + s.queue.length + s.handover.toList.length ∧
      t.evt = s.evt ∧ t.pending = s.pending

/-- 10_state.md R14: the values `PHASE` takes in one byte taken by RX: `FRAME_READY` first, then `VALID_UPDATE` or `DROPPED`,
exactly where a frame is completed; the last of them is the phase at rest. -/
def Obligations.PhasesOfOneByte : Prop :=
  ∀ (s : State) (b : Byte), s.handover = none → atRest s.pending = true →
    (phaseTrace b s).getLast? = some (phase (rxTake b s)) ∧
    (phase (rxTake b s) = .validUpdate ∨ phase (rxTake b s) = .awaitStart ∨ phase (rxTake b s) = .accumulating) ∧
    (.frameReady ∈ phaseTrace b s ↔ (rxTake b s).evt.length = s.evt.length + 1) ∧
    (.dropped ∈ phaseTrace b s ↔ (rxTake b s).evt ≠ s.evt ∧ (rxTake b s).handover = none)

/-! ### Added after the first review -/

/-- 70_reset_and_hazards.md R143: a `0x03` in the resolution cuts the frame too: after a header whose high byte is `0x03` the
next byte completes a frame of 6 bytes, after one whose low byte is `0x03` the next two one of 7, and each is `TooShort` (the
header and the pair are the arrival of their bytes: R101, notes/assumptions/7.md). -/
def Obligations.EtxInResolutionCutsTheFrame : Prop :=
  ∀ (s : State) (cmd addr : Byte) (res : Half) (x y : Byte), s.live = true → s.handover = none →
    s.fault.rxOverflow = false → s.pending = [] → cmd ≠ 0x03#8 → addr ≠ 0x03#8 →
    exceedsCap s.par.pendingCap 6 = false →
    (res.toNat / 256 = 0x03 → execAll [.frameHeader cmd addr res, .rxByte x] s =
      .next { s with evt := s.evt ++ [{ code := .tooShort, resWarn := false }] }) ∧
    (res.toNat / 256 ≠ 0x03 → res.toNat % 256 = 0x03 → execAll [.frameHeader cmd addr res, .framePayloadPair x y] s =
      .next { s with evt := s.evt ++ [{ code := .tooShort, resWarn := false }] })

/-- 43_dispatcher.md R111, its last sentence on snapshots: a SNAPSHOT at any point of a pipelined run gives the grid the
reference machine has after the first `n` of its `apply`s, `n` the number of notifications of the run so far. -/
def Obligations.SnapshotInARunIsAPrefixOfApplies : Prop :=
  ∀ (s t : State) (schedule : List Instr), s.live = true → atRest s.pending = true → Quiescent s →
    (∀ i ∈ schedule, isPipelineStep i = true) → execAll schedule s = .next t → t.stim = s.stim →
    t.fault.rxOverflow = false →
    ∃ n, t.note.length = s.note.length + n ∧
      n ≤ (acceptedUpdates s.par.hexLowerOk s.cfg (feed s.pending (schedule.flatMap wireBytes)).2).length ∧
      exec .snapshot t = .next { t with
        snap := some (((acceptedUpdates s.par.hexLowerOk s.cfg (feed s.pending (schedule.flatMap wireBytes)).2).take n).foldl
          (fun g u => (applyPayload s.par.hexLowerOk s.cfg g u.bits).grid) s.grid)
        result := .grid (((acceptedUpdates s.par.hexLowerOk s.cfg (feed s.pending (schedule.flatMap wireBytes)).2).take n).foldl
          (fun g u => (applyPayload s.par.hexLowerOk s.cfg g u.bits).grid) s.grid) }
end

