-- ==== Sys2Proof/Laws/Grid.lean ====
section
/-! SUPPORT. The grid as a memory of bits: a write is read back at its cell and nowhere else, and keeps the canonical form; a
canonical grid is determined by what its cells read. -/

namespace Sys2Proof.Machine

theorem Grid.get_eq_decide (g : Grid) (r c : Nat) : g.get r c = decide ((r, c) ∈ g) := by
  simp [Grid.get]

@[simp] theorem Grid.get_fresh (r c : Nat) : Grid.fresh.get r c = false := by simp [Grid.get, Grid.fresh]

theorem Grid.mem_insert {x y : Cell} {g : Grid} : y ∈ Grid.insert x g ↔ y = x ∨ y ∈ g := by
  induction g with
  | nil => simp [Grid.insert]
  | cons z zs ih =>
    simp only [Grid.insert]
    split
    · next h => subst h; simp
    · split
      · simp
      · simp only [List.mem_cons, ih]; tauto

theorem Grid.get_insert (x : Cell) (g : Grid) (r c : Nat) :
    (Grid.insert x g).get r c = (decide ((r, c) = x) || g.get r c) := by
  simp only [Grid.get_eq_decide, Grid.mem_insert, Bool.decide_or]

/-- Read after write, at every cell. -/
theorem Grid.get_set (g : Grid) (r c r' c' : Nat) (v : Bool) :
    (g.set r c v).get r' c' = if r' = r ∧ c' = c then v else g.get r' c' := by
  unfold Grid.set
  cases v
  · by_cases h : r' = r ∧ c' = c <;> simp [Grid.get_eq_decide, List.mem_filter, h]
  · by_cases h : r' = r ∧ c' = c <;> simp [Grid.get_insert, h]

theorem Grid.get_set_same (g : Grid) (r c : Nat) (v : Bool) : (g.set r c v).get r c = v := by
  simp [Grid.get_set]

theorem Grid.get_set_other {g : Grid} {r c r' c' : Nat} {v : Bool} (h : ¬(r' = r ∧ c' = c)) :
    (g.set r c v).get r' c' = g.get r' c' := by
  rw [Grid.get_set, if_neg h]

/-! ### The canonical form -/

theorem cellLt_iff {x y : Cell} : cellLt x y = true ↔ x.2 < y.2 ∨ (x.2 = y.2 ∧ x.1 < y.1) := by
  simp [cellLt]

theorem cellLt_trans {x y z : Cell} (h : cellLt x y = true) (h' : cellLt y z = true) : cellLt x z = true := by
  simp only [cellLt_iff] at *
  omega

theorem cellLt_irrefl (x : Cell) : ¬cellLt x x = true := by simp [cellLt]

theorem cellLt_total {x y : Cell} (h : x ≠ y) (h' : ¬cellLt x y = true) : cellLt y x = true := by
  simp only [cellLt_iff, ne_eq, Prod.ext_iff] at *
  omega

theorem Grid.wf_iff_pairwise (g : Grid) : g.wf = true ↔ g.Pairwise (fun x y => cellLt x y = true) := by
  induction g with
  | nil => simp [Grid.wf]
  | cons x xs ih =>
    cases xs with
    | nil => simp [Grid.wf]
    | cons y ys =>
      rw [Grid.wf, Bool.and_eq_true, ih, List.pairwise_cons (a := x)]
      constructor
      · rintro ⟨h, hp⟩
        refine ⟨fun z hz => ?_, hp⟩
        rcases List.mem_cons.1 hz with rfl | hz
        · exact h
        · exact cellLt_trans h ((List.pairwise_cons.1 hp).1 z hz)
      · rintro ⟨h, hp⟩
        exact ⟨h y (by simp), hp⟩

theorem Grid.wf_insert {x : Cell} {g : Grid} (h : g.wf = true) : (Grid.insert x g).wf = true := by
  rw [Grid.wf_iff_pairwise] at *
  induction g with
  | nil => simp [Grid.insert]
  | cons y ys ih =>
    have hy := List.pairwise_cons.1 h
    simp only [Grid.insert]
    split
    · exact h
    · next hne =>
      split
      · next hlt =>
        refine List.pairwise_cons.2 ⟨fun z hz => ?_, h⟩
        rcases List.mem_cons.1 hz with rfl | hz
        · exact hlt
        · exact cellLt_trans hlt (hy.1 z hz)
      · next hnlt =>
        refine List.pairwise_cons.2 ⟨fun z hz => ?_, ih hy.2⟩
        rcases Grid.mem_insert.1 hz with rfl | hz
        · exact cellLt_total hne hnlt
        · exact hy.1 z hz

/-- Every write keeps the canonical form. -/
theorem Grid.wf_set {g : Grid} (r c : Nat) (v : Bool) (h : g.wf = true) : (g.set r c v).wf = true := by
  unfold Grid.set
  cases v
  · rw [Grid.wf_iff_pairwise] at *
    exact h.filter _
  · exact Grid.wf_insert h

theorem Grid.wf_fresh : Grid.fresh.wf = true := rfl

/-- Two canonical grids that read alike are equal: equal grids are equal data. -/
theorem Grid.eq_of_get_eq {g g' : Grid} (h : g.wf = true) (h' : g'.wf = true)
    (hget : ∀ r c, g.get r c = g'.get r c) : g = g' := by
  rw [Grid.wf_iff_pairwise] at h h'
  have hmem : ∀ x, x ∈ g ↔ x ∈ g' := fun x => by
    have := hget x.1 x.2
    simpa [Grid.get_eq_decide] using this
  have hnd {l : Grid} (hl : l.Pairwise (fun x y => cellLt x y = true)) : l.Nodup :=
    hl.imp (fun {x y} hxy (he : x = y) => cellLt_irrefl x (by rwa [← he] at hxy))
  refine List.Perm.eq_of_pairwise (le := fun x y => cellLt x y = true) (fun x y _ _ hxy hyx => ?_) h h'
    ((List.perm_ext_iff_of_nodup (hnd h) (hnd h')).2 hmem)
  exact absurd (cellLt_trans hxy hyx) (cellLt_irrefl x)

end Sys2Proof.Machine
end

