-- ==== Sys2Proof/Laws/Bitmap.lean ====
section
/-! SUPPORT. What one cell write, one column and one `apply` do to the grid (42_bitmap.md R91, R92, R95). -/

namespace Sys2Proof.Machine

/-! ### One cell -/

/-- Read after a cell write: the new value at its cell, if the display has it; every other cell as before. -/
theorem writeCell_get (cfg : DisplayConfig) (k b : Nat) (new : Bool) (a : ApplyResult) (r c : Nat) :
    (writeCell cfg k b new a).grid.get r c = if (r = b ∧ c = k) ∧ inGrid cfg b k = true then new else a.grid.get r c := by
  unfold writeCell
  by_cases hg : inGrid cfg b k = true
  · by_cases hv : a.grid.get b k = new
    · by_cases hrc : r = b ∧ c = k
      · simp [hg, hv, hrc]
      · simp [hg, hv, hrc]
    · simp [hg, hv, Grid.get_set]
  · simp [hg]

/-- The count goes up by one exactly where the cell's value changes. -/
theorem writeCell_count (cfg : DisplayConfig) (k b : Nat) (new : Bool) (a : ApplyResult) :
    (writeCell cfg k b new a).count =
      a.count + if a.grid.get b k ≠ (writeCell cfg k b new a).grid.get b k then 1#32 else 0#32 := by
  rw [writeCell_get]
  unfold writeCell
  by_cases hg : inGrid cfg b k = true <;> by_cases hv : a.grid.get b k = new <;> simp [hg, hv]

@[simp] theorem writeCell_hexErrs (cfg : DisplayConfig) (k b : Nat) (new : Bool) (a : ApplyResult) :
    (writeCell cfg k b new a).hexErrs = a.hexErrs := by
  unfold writeCell; split <;> rfl

theorem gridOk_iff (cfg : DisplayConfig) (g : Grid) :
    gridOk cfg g = true ↔
      g.wf = true ∧ ∀ r c, g.get r c = true → inGrid cfg r c = true ∧ r < rowsPerByte := by
  simp only [gridOk, Bool.and_eq_true, List.all_eq_true, decide_eq_true_eq, Grid.get_eq_decide, Prod.forall]
  constructor
  · rintro ⟨⟨hw, hi⟩, hr⟩
    exact ⟨hw, fun r c h => ⟨hi r c h, hr r c h⟩⟩
  · rintro ⟨hw, h⟩
    exact ⟨⟨hw, fun r c hm => (h r c hm).1⟩, fun r c hm => (h r c hm).2⟩

theorem gridOk_fresh (cfg : DisplayConfig) : gridOk cfg Grid.fresh = true := by simp [gridOk, Grid.fresh, Grid.wf]

theorem writeCell_wf {cfg : DisplayConfig} {k b : Nat} {new : Bool} {a : ApplyResult} (h : a.grid.wf = true) :
    (writeCell cfg k b new a).grid.wf = true := by
  unfold writeCell
  split
  · exact Grid.wf_set _ _ _ h
  · exact h

theorem writeCell_gridOk {cfg : DisplayConfig} {k b : Nat} {new : Bool} {a : ApplyResult} (hb : b < rowsPerByte)
    (h : gridOk cfg a.grid = true) : gridOk cfg (writeCell cfg k b new a).grid = true := by
  rw [gridOk_iff] at *
  refine ⟨writeCell_wf h.1, fun r c hrc => ?_⟩
  rw [writeCell_get] at hrc
  split at hrc
  · next hcell => exact ⟨by rw [hcell.1.1, hcell.1.2]; exact hcell.2, by rw [hcell.1.1]; exact hb⟩
  · exact h.2 r c hrc

/-! ### One column -/

/-- A property that each cell write of rows 0 to 7 keeps is kept by a column. -/
theorem writeColumn_keeps {R : ApplyResult → Prop} {cfg : DisplayConfig} {k : Nat} {v : Byte}
    (hcell : ∀ b a, b < rowsPerByte → R a → R (writeCell cfg k b (bitval v b) a)) (a : ApplyResult) (h : R a) :
    R (writeColumn cfg k v a) := by
  have key : ∀ (l : List Nat), (∀ b ∈ l, b < rowsPerByte) → ∀ a, R a →
      R (l.foldl (fun a b => writeCell cfg k b (bitval v b) a) a) := by
    intro l
    induction l with
    | nil => intro _ a ha; exact ha
    | cons b l ih =>
      intro hl a ha
      exact ih (fun x hx => hl x (by simp [hx])) _ (hcell b a (hl b (by simp)) ha)
  exact key _ (fun b hb => by simpa using hb) a h

@[simp] theorem writeColumn_hexErrs (cfg : DisplayConfig) (k : Nat) (v : Byte) (a : ApplyResult) :
    (writeColumn cfg k v a).hexErrs = a.hexErrs :=
  writeColumn_keeps (R := fun x => x.hexErrs = a.hexErrs) (fun b x _ h => by simpa using h) a rfl

theorem writeColumn_gridOk {cfg : DisplayConfig} {k : Nat} {v : Byte} {a : ApplyResult} (h : gridOk cfg a.grid = true) :
    gridOk cfg (writeColumn cfg k v a).grid = true :=
  writeColumn_keeps (R := fun x => gridOk cfg x.grid = true) (fun _ _ hb h => writeCell_gridOk hb h) a h

/-- Read after a column: rows 0 to 7 of column `k` hold the byte's bits, as far as the display has them. -/
theorem writeColumn_get (cfg : DisplayConfig) (k : Nat) (v : Byte) (a : ApplyResult) (r c : Nat) :
    (writeColumn cfg k v a).grid.get r c =
      if c = k ∧ r < rowsPerByte ∧ inGrid cfg r k = true then bitval v r else a.grid.get r c := by
  have key : ∀ (l : List Nat), ∀ a : ApplyResult,
      (l.foldl (fun a b => writeCell cfg k b (bitval v b) a) a).grid.get r c =
        if c = k ∧ r ∈ l ∧ inGrid cfg r k = true then bitval v r else a.grid.get r c := by
    intro l
    induction l with
    | nil => intro a; simp
    | cons b l ih =>
      intro a
      rw [List.foldl_cons, ih, writeCell_get]
      by_cases hc : c = k <;> by_cases hl : r ∈ l <;> by_cases hb : r = b <;> by_cases hg : inGrid cfg r k = true <;>
        simp_all
  rw [writeColumn, key]
  simp

/-! ### One `apply` -/

/-- A property that columns and malformed pairs keep is kept by `apply`'s loop. -/
theorem applyLoop_keeps {R : ApplyResult → Prop} {lowerOk : Bool} {cfg : DisplayConfig}
    (hcol : ∀ k v a, R a → R (writeColumn cfg k v a)) (herr : ∀ a : ApplyResult, R a → R { a with hexErrs := a.hexErrs + 1 })
    (k : Nat) (payload : List Byte) (a : ApplyResult) (h : R a) : R (applyLoop lowerOk cfg k payload a) := by
  fun_induction applyLoop lowerOk cfg k payload a with
  | case1 k c0 c1 rest a hp ih => exact ih (herr a h)
  | case2 k c0 c1 rest a v hp ih => exact ih (hcol k v a h)
  | case3 k l a hl => exact h

/-- `apply` keeps a grid as HFR can hold it. -/
theorem applyPayload_gridOk {lowerOk : Bool} {cfg : DisplayConfig} {g : Grid} (payload : List Byte)
    (h : gridOk cfg g = true) : gridOk cfg (applyPayload lowerOk cfg g payload).grid = true :=
  applyLoop_keeps (R := fun x => gridOk cfg x.grid = true) (fun _ _ _ h => writeColumn_gridOk h) (fun _ h => h) _ _ _ h

end Sys2Proof.Machine
end

