-- ==== Sys2Proof/Laws/Codec.lean ====
section
/-! SUPPORT. Values survive being written as bytes and read back (20_memory.md R34). -/

namespace Sys2Proof

theorem byteOf_toNat {w : Nat} (i : Nat) (v : BitVec w) : (byteOf i v).toNat = v.toNat / 2 ^ (8 * i) % 256 := by
  simp [byteOf, BitVec.toNat_setWidth, BitVec.toNat_ushiftRight, Nat.shiftRight_eq_div_pow]

theorem halfOf_toNat (hi lo : Byte) : (halfOf hi lo).toNat = hi.toNat * 256 + lo.toNat := by
  have h1 := hi.isLt
  have h2 := lo.isLt
  simp only [halfOf, BitVec.toNat_add, BitVec.toNat_mul, BitVec.toNat_setWidth, BitVec.toNat_ofNat]
  omega

theorem halfOf_byteOf (v : Half) : halfOf (byteOf 1 v) (byteOf 0 v) = v := by
  apply BitVec.eq_of_toNat_eq
  have := v.isLt
  rw [halfOf_toNat, byteOf_toNat, byteOf_toNat]
  omega

theorem wordOf_toNat (b3 b2 b1 b0 : Byte) :
    (wordOf b3 b2 b1 b0).toNat = b3.toNat * 16777216 + b2.toNat * 65536 + b1.toNat * 256 + b0.toNat := by
  have h3 := b3.isLt
  have h2 := b2.isLt
  have h1 := b1.isLt
  have h0 := b0.isLt
  simp only [wordOf, BitVec.toNat_ofNat]
  omega

theorem wordOf_byteOf (v : Word32) : wordOf (byteOf 3 v) (byteOf 2 v) (byteOf 1 v) (byteOf 0 v) = v := by
  apply BitVec.eq_of_toNat_eq
  have := v.isLt
  simp only [wordOf_toNat, byteOf_toNat]
  omega

/-- A byte-sequence operand is read back, whatever follows it. -/
theorem decodeBytes_encodeBytes (mk : List Byte → Instr) (bs rest : List Byte) (h : bs.length < 2 ^ 32) :
    decodeBytes mk (encodeBytes bs ++ rest) = .ok (mk bs, rest) := by
  have hn : (BitVec.ofNat 32 bs.length).toNat = bs.length := by
    rw [BitVec.toNat_ofNat]; exact Nat.mod_eq_of_lt h
  simp [encodeBytes, wordBytes, decodeBytes, takeBytes, wordOf_byteOf, hn]

theorem takeBytes_ok {mk : List Byte → Instr} {n : Nat} {bs rest : List Byte} {i : Instr}
    (h : takeBytes mk n bs = .ok (i, rest)) : ∃ operand, i = mk operand ∧ operand.length = n ∧ bs = operand ++ rest := by
  unfold takeBytes at h
  split at h
  · next hn =>
    cases h
    exact ⟨bs.take n, rfl, by simpa using hn, (List.take_append_drop n bs).symm⟩
  · cases h

/-- A byte-sequence operand that is read is short enough for its length field. -/
theorem decodeBytes_ok {mk : List Byte → Instr} {bs rest : List Byte} {i : Instr}
    (h : decodeBytes mk bs = .ok (i, rest)) :
    ∃ operand n, i = mk operand ∧ operand.length < 2 ^ 32 ∧ bs = n ++ operand ++ rest := by
  match bs, h with
  | n3 :: n2 :: n1 :: n0 :: bs, h =>
    obtain ⟨operand, hi, hl, rfl⟩ := takeBytes_ok h
    exact ⟨operand, [n3, n2, n1, n0], hi, hl ▸ BitVec.isLt _, rfl⟩

/-! ### Formats -/

theorem formatOf_formatTag (f : Format) : formatOf (formatTag f) = some f := by cases f <;> rfl

/-- The tag of a format selects that format's decoder. -/
@[simp] theorem decode_formatTag (lowerOk : Bool) (f : Format) (bs : List Byte) :
    decode lowerOk (formatTag f :: bs) = decodeAs lowerOk f bs := by
  simp [decode, formatOf_formatTag]

/-- Bytes that decode open with a format's tag, and the rest decodes in that format. -/
theorem decode_ok_cases {lowerOk : Bool} {bs rest : List Byte} {i : Instr} (h : decode lowerOk bs = .ok (i, rest)) :
    ∃ tag f bs', bs = tag :: bs' ∧ decodeAs lowerOk f bs' = .ok (i, rest) := by
  cases bs with
  | nil => simp [decode] at h
  | cons tag bs' =>
    cases hf : formatOf tag with
    | none => simp [decode, hf] at h
    | some f => exact ⟨tag, f, bs', rfl, by simpa [decode, hf] using h⟩

end Sys2Proof
end

