-- ==== Sys2Proof/Laws/Frame.lean ====
section
/-! SUPPORT. The fields of a frame that is written by its fields (30_encoding.md R50). -/

namespace Sys2Proof.Machine

variable (m cmd addr rh rl : Byte) (payload : List Byte) (e h l : Byte)

theorem frameOf_length : (frameOf m cmd addr rh rl payload e h l).length = payload.length + 8 := by simp [frameOf]

/-- Every byte sequence of 9 bytes or more is a frame written by its fields, with a payload. -/
theorem exists_frameOf {f : List Byte} (hf : 9 ≤ f.length) :
    ∃ m cmd addr rh rl payload e h l, f = frameOf m cmd addr rh rl payload e h l ∧ payload ≠ [] := by
  match f, hf with
  | m :: cmd :: addr :: rh :: rl :: tail, hf =>
    have ht : 4 ≤ tail.length := by simp at hf; omega
    obtain ⟨e, h, l, he⟩ : ∃ e h l, tail.drop (tail.length - 3) = [e, h, l] := by
      have hlen : (tail.drop (tail.length - 3)).length = 3 := by simp; omega
      match hd : tail.drop (tail.length - 3), hlen with
      | [e, h, l], _ => exact ⟨e, h, l, rfl⟩
    refine ⟨m, cmd, addr, rh, rl, tail.take (tail.length - 3), e, h, l, ?_, ?_⟩
    · have := List.take_append_drop (tail.length - 3) tail
      rw [he] at this
      simp [frameOf, this]
    · intro h0
      have := congrArg List.length h0
      simp at this
      omega

theorem frameOf_tail (k : Nat) :
    byteAt (frameOf m cmd addr rh rl payload e h l) (payload.length + 5 + k) = byteAt [e, h, l] k := by
  have hl : ([m, cmd, addr, rh, rl] ++ payload).length ≤ payload.length + 5 + k := by simp
  unfold byteAt List.getD frameOf
  rw [List.getElem?_append_right hl]
  congr 2
  simp

theorem frameOf_byte0 : byteAt (frameOf m cmd addr rh rl payload e h l) 0 = m := rfl

theorem frameOf_endMarker : frameEndMarker (frameOf m cmd addr rh rl payload e h l) = e := by
  rw [frameEndMarker, frameOf_length]
  exact frameOf_tail m cmd addr rh rl payload e h l 0

theorem frameOf_checksum (lowerOk : Bool) :
    frameChecksum lowerOk (frameOf m cmd addr rh rl payload e h l) = hexpair lowerOk h l := by
  rw [frameChecksum, frameOf_length]
  exact congrArg₂ _ (frameOf_tail m cmd addr rh rl payload e h l 1) (frameOf_tail m cmd addr rh rl payload e h l 2)

theorem frameOf_address : frameAddress (frameOf m cmd addr rh rl payload e h l) = addr := rfl

theorem frameOf_resolution : frameResolution (frameOf m cmd addr rh rl payload e h l) = halfOf rh rl := rfl

/-- The bytes before the end marker. -/
theorem frameOf_take : (frameOf m cmd addr rh rl payload e h l).take
    ((frameOf m cmd addr rh rl payload e h l).length - (trailerLen + 1)) = [m, cmd, addr, rh, rl] ++ payload := by
  have hk : (frameOf m cmd addr rh rl payload e h l).length - (trailerLen + 1) =
      ([m, cmd, addr, rh, rl] ++ payload).length := by simp [frameOf, trailerLen]
  rw [hk, frameOf, List.take_left]

theorem frameOf_payload : framePayload (frameOf m cmd addr rh rl payload e h l) = payload := by
  rw [framePayload, slice, frameOf_take]
  rfl

/-- The summed bytes (41_decoder.md R84). -/
theorem frameOf_summed : slice (frameOf m cmd addr rh rl payload e h l) 1
    ((frameOf m cmd addr rh rl payload e h l).length - (trailerLen + 1)) = [cmd, addr, rh, rl] ++ payload := by
  rw [slice, frameOf_take]
  rfl

end Sys2Proof.Machine
end

