-- ==== Sys2Proof/Laws/Reassembler.lean ====
section
/-! SUPPORT. What `find`, `step` and `feed` do (40_reassembler.md), on the four shapes of a buffer at rest. -/

namespace Sys2Proof.Machine

/-! ### `find` -/

theorem findAt_eq_none {v : Byte} {l : List Byte} {i : Nat} : findAt v l i = none ↔ v ∉ l := by
  induction l generalizing i with
  | nil => simp [findAt]
  | cons b bs ih =>
    by_cases h : b = v
    · simp [findAt, h]
    · simp [findAt, h, ih, Ne.symm h]

theorem findAt_append_cons {v : Byte} {a : List Byte} (b : List Byte) (i : Nat) (h : v ∉ a) :
    findAt v (a ++ v :: b) i = some (i + a.length) := by
  induction a generalizing i with
  | nil => simp [findAt]
  | cons x xs ih =>
    simp only [List.mem_cons, not_or] at h
    rw [List.cons_append, findAt, if_neg (Ne.symm h.1), ih _ h.2]
    simp; omega

/-- A value that occurs splits its list at its first place. -/
theorem exists_first {v : Byte} {l : List Byte} (h : v ∈ l) : ∃ a b, l = a ++ v :: b ∧ v ∉ a :=
  List.eq_append_cons_of_mem h

theorem find_cons_one (x : Byte) (l : List Byte) (v : Byte) : find (x :: l) v 1 = findAt v l 1 := rfl

theorem find_body {body : List Byte} (h : ETX ∉ body) : find (STX :: body) ETX 1 = none := by
  rw [find_cons_one, findAt_eq_none]; exact h

theorem find_body_etx {body : List Byte} (rest : List Byte) (h : ETX ∉ body) :
    find (STX :: (body ++ ETX :: rest)) ETX 1 = some (1 + body.length) := by
  rw [find_cons_one, findAt_append_cons _ _ h]

/-! ### Shapes of a buffer -/

/-- After a start marker: no end marker yet, or a body, the first end marker and the bytes after it. -/
theorem body_cases (l : List Byte) :
    ETX ∉ l ∨ ∃ body rest, l = body ++ ETX :: rest ∧ ETX ∉ body := by
  by_cases h : ETX ∈ l
  · exact .inr (exists_first h)
  · exact .inl h

/-- 10_state.md R13: a buffer at rest has one of four shapes. -/
theorem atRest_iff (p : List Byte) :
    atRest p = true ↔
      p = [] ∨ ∃ body, ETX ∉ body ∧ (p = STX :: body ∨ p = STX :: (body ++ [ETX]) ∨
        ∃ h, p = STX :: (body ++ [ETX, h])) := by
  cases p with
  | nil => simp [atRest]
  | cons x l =>
    simp only [atRest, Bool.and_eq_true, beq_iff_eq, reduceCtorEq, false_or, List.cons.injEq]
    constructor
    · rintro ⟨rfl, hf⟩
      rcases body_cases l with hb | ⟨body, rest, rfl, hb⟩
      · exact ⟨l, hb, .inl ⟨rfl, rfl⟩⟩
      · rw [find_body_etx rest hb] at hf
        refine ⟨body, hb, .inr ?_⟩
        match rest, hf with
        | [], _ => exact .inl ⟨rfl, rfl⟩
        | [h], _ => exact .inr ⟨h, rfl, rfl⟩
        | _ :: _ :: _, hf => simp [trailerLen] at hf; omega
    · rintro ⟨body, hb, ⟨rfl, rfl⟩ | ⟨rfl, rfl⟩ | ⟨h, rfl, rfl⟩⟩
      · simp [find_body hb]
      · simp [find_body_etx [] hb, trailerLen]
      · simp [find_body_etx [h] hb, trailerLen]; omega

theorem atRest_body {body : List Byte} (h : ETX ∉ body) : atRest (STX :: body) = true :=
  (atRest_iff _).2 (.inr ⟨body, h, .inl rfl⟩)

theorem atRest_trailer0 {body : List Byte} (h : ETX ∉ body) : atRest (STX :: (body ++ [ETX])) = true :=
  (atRest_iff _).2 (.inr ⟨body, h, .inr (.inl rfl)⟩)

theorem atRest_trailer1 {body : List Byte} (x : Byte) (h : ETX ∉ body) : atRest (STX :: (body ++ [ETX, x])) = true :=
  (atRest_iff _).2 (.inr ⟨body, h, .inr (.inr ⟨x, rfl⟩)⟩)

/-! ### `step` on each shape (40_reassembler.md R71) -/

theorem stepByte_start : stepByte [] STX = ([STX], none) := by simp [stepByte]

theorem stepByte_garbage {b : Byte} (h : b ≠ STX) : stepByte [] b = ([], none) := by simp [stepByte, h]

theorem stepByte_body {body : List Byte} (b : Byte) (h : ETX ∉ body) :
    stepByte (STX :: body) b = (STX :: (body ++ [b]), none) := by
  simp [stepByte, find_body h]

theorem stepByte_trailer0 {body : List Byte} (b : Byte) (h : ETX ∉ body) :
    stepByte (STX :: (body ++ [ETX])) b = (STX :: (body ++ [ETX, b]), none) := by
  simp [stepByte, find_body_etx [] h]

theorem stepByte_trailer1 {body : List Byte} (x b : Byte) (h : ETX ∉ body) :
    stepByte (STX :: (body ++ [ETX, x])) b = ([], some (STX :: (body ++ [ETX, x, b]))) := by
  simp [stepByte, find_body_etx [x] h]; omega

/-- `step` at rest, once and for all: no frame and a buffer at rest again, or a whole frame and an empty buffer. -/
theorem stepByte_cases {p : List Byte} (b : Byte) (hp : atRest p = true) :
    (∃ p', stepByte p b = (p', none) ∧ atRest p' = true ∧ (p' = [] ∧ p = [] ∨ p' = p ++ [b])) ∨
      (stepByte p b = ([], some (p ++ [b])) ∧ CutFrame (p ++ [b])) := by
  rcases (atRest_iff p).1 hp with rfl | ⟨body, hb, rfl | rfl | ⟨x, rfl⟩⟩
  · by_cases h : b = STX
    · subst h
      exact .inl ⟨_, stepByte_start, rfl, .inr rfl⟩
    · exact .inl ⟨_, stepByte_garbage h, rfl, .inl ⟨rfl, rfl⟩⟩
  · refine .inl ⟨_, stepByte_body b hb, ?_, .inr (by simp)⟩
    by_cases h : b = ETX
    · subst h; exact atRest_trailer0 hb
    · exact atRest_body (by simp [hb, Ne.symm h])
  · exact .inl ⟨_, stepByte_trailer0 b hb, atRest_trailer1 b hb, .inr (by simp)⟩
  · exact .inr ⟨by rw [stepByte_trailer1 x b hb]; simp, body, x, b, by simp, hb⟩

theorem atRest_stepByte {p : List Byte} (b : Byte) (hp : atRest p = true) : atRest (stepByte p b).1 = true := by
  rcases stepByte_cases b hp with ⟨p', h, hr, -⟩ | ⟨h, -⟩ <;> simp [h]
  · exact hr
  · rfl

/-! ### `feed`'s loop (40_reassembler.md R70) -/

theorem feedLoop_noStart {p : List Byte} (n : Nat) (fr : List (List Byte)) (h : STX ∉ p) :
    feedLoop (n + 1) p fr = ([], fr) := by
  have : find p STX 0 = none := findAt_eq_none.2 h
  simp [feedLoop, this]

theorem find_start {g : List Byte} (rest : List Byte) (h : STX ∉ g) : find (g ++ STX :: rest) STX 0 = some g.length := by
  have := findAt_append_cons rest 0 h
  simpa [find] using this

theorem feedLoop_body {g body : List Byte} (n : Nat) (fr : List (List Byte)) (hg : STX ∉ g) (hb : ETX ∉ body) :
    feedLoop (n + 1) (g ++ STX :: body) fr = (STX :: body, fr) := by
  simp [feedLoop, find_start body hg, find_body hb]

theorem feedLoop_trailer {g body t : List Byte} (n : Nat) (fr : List (List Byte)) (hg : STX ∉ g) (hb : ETX ∉ body)
    (ht : t.length < 2) :
    feedLoop (n + 1) (g ++ STX :: (body ++ ETX :: t)) fr = (STX :: (body ++ ETX :: t), fr) := by
  simp only [feedLoop, find_start _ hg, List.drop_left, find_body_etx t hb]
  rw [if_pos]
  simp [trailerLen]; omega

theorem feedLoop_frame {g body : List Byte} (n : Nat) (fr : List (List Byte)) (x y : Byte) (rest : List Byte)
    (hg : STX ∉ g) (hb : ETX ∉ body) :
    feedLoop (n + 1) (g ++ STX :: (body ++ ETX :: x :: y :: rest)) fr =
      feedLoop n rest (fr ++ [STX :: (body ++ [ETX, x, y])]) := by
  have h1 : (STX :: (body ++ ETX :: x :: y :: rest)) = (STX :: (body ++ [ETX, x, y])) ++ rest := by simp
  have h2 : 1 + body.length + 3 = (STX :: (body ++ [ETX, x, y])).length := by simp; omega
  simp only [feedLoop, find_start _ hg, List.drop_left, find_body_etx _ hb]
  rw [if_neg (by simp [trailerLen]; omega), h1, h2, List.drop_left, List.take_left]

/-- What a buffer looks like to one pass of the loop. -/
theorem buffer_cases (p : List Byte) :
    STX ∉ p ∨ ∃ g, STX ∉ g ∧
      ((∃ body, ETX ∉ body ∧ p = g ++ STX :: body) ∨
       (∃ body t, ETX ∉ body ∧ t.length < 2 ∧ p = g ++ STX :: (body ++ ETX :: t)) ∨
       (∃ body x y rest, ETX ∉ body ∧ p = g ++ STX :: (body ++ ETX :: x :: y :: rest))) := by
  by_cases h : STX ∈ p
  · obtain ⟨g, l, rfl, hg⟩ := exists_first h
    refine .inr ⟨g, hg, ?_⟩
    rcases body_cases l with hb | ⟨body, t, rfl, hb⟩
    · exact .inl ⟨l, hb, rfl⟩
    · match t with
      | [] => exact .inr (.inl ⟨body, [], hb, by simp, rfl⟩)
      | [x] => exact .inr (.inl ⟨body, [x], hb, by simp, rfl⟩)
      | x :: y :: rest => exact .inr (.inr ⟨body, x, y, rest, hb, rfl⟩)
  · exact .inl h

/-- More fuel than bytes: the loop has come to its end, and the frames found before are only carried along. -/
theorem feedLoop_enough (k : Nat) : ∀ (p : List Byte), p.length ≤ k → ∀ (n m : Nat) (fr : List (List Byte)),
    p.length < n → p.length < m → feedLoop n p fr = ((feedLoop m p []).1, fr ++ (feedLoop m p []).2) := by
  induction k using Nat.strong_induction_on with
  | _ k ih =>
    intro p hk n m fr hn hm
    obtain ⟨n, rfl⟩ : ∃ j, n = j + 1 := ⟨n - 1, by omega⟩
    obtain ⟨m, rfl⟩ : ∃ j, m = j + 1 := ⟨m - 1, by omega⟩
    rcases buffer_cases p with h | ⟨g, hg, ⟨body, hb, rfl⟩ | ⟨body, t, hb, ht, rfl⟩ | ⟨body, x, y, rest, hb, rfl⟩⟩
    · simp [feedLoop_noStart _ _ h]
    · simp [feedLoop_body _ _ hg hb]
    · simp [feedLoop_trailer _ _ hg hb ht]
    · simp only [List.length_append, List.length_cons] at hn hm hk
      have hr := ih rest.length (by omega) rest le_rfl
      rw [feedLoop_frame _ _ _ _ _ hg hb, feedLoop_frame _ _ _ _ _ hg hb,
        hr n (rest.length + 1) _ (by omega) (by omega), hr m (rest.length + 1) _ (by omega) (by omega)]
      simp

theorem feed_eq_feed_nil (p chunk : List Byte) : feed p chunk = feed [] (p ++ chunk) := by simp [feed]

theorem feed_eq_feedLoop {q : List Byte} {n : Nat} (fr : List (List Byte)) (h : q.length < n) :
    feedLoop n q fr = ((feed [] q).1, fr ++ (feed [] q).2) := by
  rw [feedLoop_enough q.length q le_rfl n (q.length + 1) fr h (by omega)]
  simp [feed]

theorem feed_noStart {q : List Byte} (h : STX ∉ q) : feed [] q = ([], []) := feedLoop_noStart _ _ (by simpa using h)

theorem feed_body {g body : List Byte} (hg : STX ∉ g) (hb : ETX ∉ body) :
    feed [] (g ++ STX :: body) = (STX :: body, []) := by
  simp [feed, feedLoop_body _ _ hg hb]

theorem feed_trailer {g body t : List Byte} (hg : STX ∉ g) (hb : ETX ∉ body) (ht : t.length < 2) :
    feed [] (g ++ STX :: (body ++ ETX :: t)) = (STX :: (body ++ ETX :: t), []) := by
  simp [feed, feedLoop_trailer _ _ hg hb ht]

theorem feed_frame {g body : List Byte} (x y : Byte) (rest : List Byte) (hg : STX ∉ g) (hb : ETX ∉ body) :
    feed [] (g ++ STX :: (body ++ ETX :: x :: y :: rest)) =
      ((feed [] rest).1, (STX :: (body ++ [ETX, x, y])) :: (feed [] rest).2) := by
  have : feed [] (g ++ STX :: (body ++ ETX :: x :: y :: rest)) =
      feedLoop ((g ++ STX :: (body ++ ETX :: x :: y :: rest)).length + 1)
        (g ++ STX :: (body ++ ETX :: x :: y :: rest)) [] := by simp [feed]
  rw [this, feedLoop_frame _ _ _ _ _ hg hb, feed_eq_feedLoop _ (by simp; omega)]
  simp

/-- Bytes before the first start marker are dropped (40_reassembler.md R73). -/
theorem feed_garbage {g : List Byte} (q : List Byte) (hg : STX ∉ g) : feed [] (g ++ q) = feed [] q := by
  have hmem {g' : List Byte} (h : STX ∉ g') : STX ∉ g ++ g' := by simp [hg, h]
  rcases buffer_cases q with h | ⟨g', hg', ⟨body, hb, rfl⟩ | ⟨body, t, hb, ht, rfl⟩ | ⟨body, x, y, rest, hb, rfl⟩⟩
  · rw [feed_noStart h, feed_noStart (hmem h)]
  · rw [← List.append_assoc, feed_body (hmem hg') hb, feed_body hg' hb]
  · rw [← List.append_assoc, feed_trailer (hmem hg') hb ht, feed_trailer hg' hb ht]
  · rw [← List.append_assoc, feed_frame _ _ _ (hmem hg') hb, feed_frame _ _ _ hg' hb]

/-- `feed` takes one byte as `step` does and goes on with the rest (40_reassembler.md R71). -/
theorem feed_cons {p : List Byte} (b : Byte) (rest : List Byte) (hp : atRest p = true) :
    feed p (b :: rest) =
      ((feed (stepByte p b).1 rest).1, (stepByte p b).2.toList ++ (feed (stepByte p b).1 rest).2) := by
  rcases (atRest_iff p).1 hp with rfl | ⟨body, hb, rfl | rfl | ⟨x, rfl⟩⟩
  · by_cases h : b = STX
    · subst h
      rw [stepByte_start, feed_eq_feed_nil [STX]]
      simp
    · rw [stepByte_garbage h]
      have := feed_garbage (g := [b]) rest (by simpa using Ne.symm h)
      simpa using this
  · rw [stepByte_body b hb, feed_eq_feed_nil (STX :: (body ++ [b])), feed_eq_feed_nil (STX :: body)]
    simp
  · rw [stepByte_trailer0 b hb, feed_eq_feed_nil (STX :: (body ++ [ETX, b])), feed_eq_feed_nil (STX :: (body ++ [ETX]))]
    simp
  · rw [stepByte_trailer1 x b hb, feed_eq_feed_nil (STX :: (body ++ [ETX, x]))]
    have := feed_frame (g := []) x b rest (by simp) hb
    simpa using this

/-- A buffer at rest holds no frame. -/
theorem feed_nil_of_atRest {p : List Byte} (hp : atRest p = true) : feed p [] = (p, []) := by
  rw [feed_eq_feed_nil, List.append_nil]
  rcases (atRest_iff p).1 hp with rfl | ⟨body, hb, rfl | rfl | ⟨x, rfl⟩⟩
  · exact feed_noStart (by simp)
  · exact feed_body (g := []) (by simp) hb
  · exact feed_trailer (g := []) (t := []) (by simp) hb (by simp)
  · exact feed_trailer (g := []) (t := [x]) (by simp) hb (by simp)

end Sys2Proof.Machine
end

