-- ==== Sys2Proof/Laws/State.lean ====
section
/-! SUPPORT. One lemma per field per named update of the state, true by rfl, so that no later proof unfolds an update. -/

namespace Sys2Proof.Machine

@[simp] theorem emitEvent_par (e : Event) (s : State) :
    (emitEvent e s).par = s.par := rfl
@[simp] theorem emitEvent_live (e : Event) (s : State) :
    (emitEvent e s).live = s.live := rfl
@[simp] theorem emitEvent_cfg (e : Event) (s : State) :
    (emitEvent e s).cfg = s.cfg := rfl
@[simp] theorem emitEvent_pending (e : Event) (s : State) :
    (emitEvent e s).pending = s.pending := rfl
@[simp] theorem emitEvent_handover (e : Event) (s : State) :
    (emitEvent e s).handover = s.handover := rfl
@[simp] theorem emitEvent_queue (e : Event) (s : State) :
    (emitEvent e s).queue = s.queue := rfl
@[simp] theorem emitEvent_grid (e : Event) (s : State) :
    (emitEvent e s).grid = s.grid := rfl
@[simp] theorem emitEvent_updatedCount (e : Event) (s : State) :
    (emitEvent e s).updatedCount = s.updatedCount := rfl
@[simp] theorem emitEvent_snap (e : Event) (s : State) :
    (emitEvent e s).snap = s.snap := rfl
@[simp] theorem emitEvent_fault (e : Event) (s : State) :
    (emitEvent e s).fault = s.fault := rfl
@[simp] theorem emitEvent_evt (e : Event) (s : State) :
    (emitEvent e s).evt = s.evt ++ [e] := rfl
@[simp] theorem emitEvent_note (e : Event) (s : State) :
    (emitEvent e s).note = s.note := rfl
@[simp] theorem emitEvent_result (e : Event) (s : State) :
    (emitEvent e s).result = s.result := rfl
@[simp] theorem emitEvent_stim (e : Event) (s : State) :
    (emitEvent e s).stim = s.stim := rfl
@[simp] theorem emitEvent_draws (e : Event) (s : State) :
    (emitEvent e s).draws = s.draws := rfl

@[simp] theorem returns_par (r : Result) (s : State) :
    (returns r s).par = s.par := rfl
@[simp] theorem returns_live (r : Result) (s : State) :
    (returns r s).live = s.live := rfl
@[simp] theorem returns_cfg (r : Result) (s : State) :
    (returns r s).cfg = s.cfg := rfl
@[simp] theorem returns_pending (r : Result) (s : State) :
    (returns r s).pending = s.pending := rfl
@[simp] theorem returns_handover (r : Result) (s : State) :
    (returns r s).handover = s.handover := rfl
@[simp] theorem returns_queue (r : Result) (s : State) :
    (returns r s).queue = s.queue := rfl
@[simp] theorem returns_grid (r : Result) (s : State) :
    (returns r s).grid = s.grid := rfl
@[simp] theorem returns_updatedCount (r : Result) (s : State) :
    (returns r s).updatedCount = s.updatedCount := rfl
@[simp] theorem returns_snap (r : Result) (s : State) :
    (returns r s).snap = s.snap := rfl
@[simp] theorem returns_fault (r : Result) (s : State) :
    (returns r s).fault = s.fault := rfl
@[simp] theorem returns_evt (r : Result) (s : State) :
    (returns r s).evt = s.evt := rfl
@[simp] theorem returns_note (r : Result) (s : State) :
    (returns r s).note = s.note := rfl
@[simp] theorem returns_result (r : Result) (s : State) :
    (returns r s).result = r := rfl
@[simp] theorem returns_stim (r : Result) (s : State) :
    (returns r s).stim = s.stim := rfl
@[simp] theorem returns_draws (r : Result) (s : State) :
    (returns r s).draws = s.draws := rfl

@[simp] theorem raiseOverflow_par (s : State) :
    (raiseOverflow s).par = s.par := rfl
@[simp] theorem raiseOverflow_live (s : State) :
    (raiseOverflow s).live = s.live := rfl
@[simp] theorem raiseOverflow_cfg (s : State) :
    (raiseOverflow s).cfg = s.cfg := rfl
@[simp] theorem raiseOverflow_pending (s : State) :
    (raiseOverflow s).pending = s.pending := rfl
@[simp] theorem raiseOverflow_handover (s : State) :
    (raiseOverflow s).handover = s.handover := rfl
@[simp] theorem raiseOverflow_queue (s : State) :
    (raiseOverflow s).queue = s.queue := rfl
@[simp] theorem raiseOverflow_grid (s : State) :
    (raiseOverflow s).grid = s.grid := rfl
@[simp] theorem raiseOverflow_updatedCount (s : State) :
    (raiseOverflow s).updatedCount = s.updatedCount := rfl
@[simp] theorem raiseOverflow_snap (s : State) :
    (raiseOverflow s).snap = s.snap := rfl
@[simp] theorem raiseOverflow_fault (s : State) :
    (raiseOverflow s).fault = { rxOverflow := true } := rfl
@[simp] theorem raiseOverflow_evt (s : State) :
    (raiseOverflow s).evt = s.evt := rfl
@[simp] theorem raiseOverflow_note (s : State) :
    (raiseOverflow s).note = s.note := rfl
@[simp] theorem raiseOverflow_result (s : State) :
    (raiseOverflow s).result = s.result := rfl
@[simp] theorem raiseOverflow_stim (s : State) :
    (raiseOverflow s).stim = s.stim := rfl
@[simp] theorem raiseOverflow_draws (s : State) :
    (raiseOverflow s).draws = s.draws := rfl

@[simp] theorem offerAgain_par (bs : List Byte) (s : State) :
    (offerAgain bs s).par = s.par := rfl
@[simp] theorem offerAgain_live (bs : List Byte) (s : State) :
    (offerAgain bs s).live = s.live := rfl
@[simp] theorem offerAgain_cfg (bs : List Byte) (s : State) :
    (offerAgain bs s).cfg = s.cfg := rfl
@[simp] theorem offerAgain_pending (bs : List Byte) (s : State) :
    (offerAgain bs s).pending = s.pending := rfl
@[simp] theorem offerAgain_handover (bs : List Byte) (s : State) :
    (offerAgain bs s).handover = s.handover := rfl
@[simp] theorem offerAgain_queue (bs : List Byte) (s : State) :
    (offerAgain bs s).queue = s.queue := rfl
@[simp] theorem offerAgain_grid (bs : List Byte) (s : State) :
    (offerAgain bs s).grid = s.grid := rfl
@[simp] theorem offerAgain_updatedCount (bs : List Byte) (s : State) :
    (offerAgain bs s).updatedCount = s.updatedCount := rfl
@[simp] theorem offerAgain_snap (bs : List Byte) (s : State) :
    (offerAgain bs s).snap = s.snap := rfl
@[simp] theorem offerAgain_fault (bs : List Byte) (s : State) :
    (offerAgain bs s).fault = s.fault := rfl
@[simp] theorem offerAgain_evt (bs : List Byte) (s : State) :
    (offerAgain bs s).evt = s.evt := rfl
@[simp] theorem offerAgain_note (bs : List Byte) (s : State) :
    (offerAgain bs s).note = s.note := rfl
@[simp] theorem offerAgain_result (bs : List Byte) (s : State) :
    (offerAgain bs s).result = s.result := rfl
@[simp] theorem offerAgain_stim (bs : List Byte) (s : State) :
    (offerAgain bs s).stim = bs.flatMap (fun b => encode (.rxByte b)) ++ s.stim := rfl
@[simp] theorem offerAgain_draws (bs : List Byte) (s : State) :
    (offerAgain bs s).draws = s.draws := rfl

@[simp] theorem placeWord_par (s : State) (nbits w : Nat) :
    (placeWord s nbits w).par = s.par := rfl
@[simp] theorem placeWord_live (s : State) (nbits w : Nat) :
    (placeWord s nbits w).live = s.live := rfl
@[simp] theorem placeWord_cfg (s : State) (nbits w : Nat) :
    (placeWord s nbits w).cfg = s.cfg := rfl
@[simp] theorem placeWord_pending (s : State) (nbits w : Nat) :
    (placeWord s nbits w).pending = s.pending := rfl
@[simp] theorem placeWord_handover (s : State) (nbits w : Nat) :
    (placeWord s nbits w).handover = s.handover := rfl
@[simp] theorem placeWord_queue (s : State) (nbits w : Nat) :
    (placeWord s nbits w).queue = s.queue := rfl
@[simp] theorem placeWord_grid (s : State) (nbits w : Nat) :
    (placeWord s nbits w).grid = s.grid := rfl
@[simp] theorem placeWord_updatedCount (s : State) (nbits w : Nat) :
    (placeWord s nbits w).updatedCount = s.updatedCount := rfl
@[simp] theorem placeWord_snap (s : State) (nbits w : Nat) :
    (placeWord s nbits w).snap = s.snap := rfl
@[simp] theorem placeWord_fault (s : State) (nbits w : Nat) :
    (placeWord s nbits w).fault = s.fault := rfl
@[simp] theorem placeWord_evt (s : State) (nbits w : Nat) :
    (placeWord s nbits w).evt = s.evt := rfl
@[simp] theorem placeWord_note (s : State) (nbits w : Nat) :
    (placeWord s nbits w).note = s.note := rfl
@[simp] theorem placeWord_result (s : State) (nbits w : Nat) :
    (placeWord s nbits w).result = s.result := rfl
@[simp] theorem placeWord_stim (s : State) (nbits w : Nat) :
    (placeWord s nbits w).stim = tableBytes nbits w ++ s.stim := rfl
@[simp] theorem placeWord_draws (s : State) (nbits w : Nat) :
    (placeWord s nbits w).draws = s.draws := rfl

@[simp] theorem initialise_par (rows columns : Word32) (address : Byte) (s : State) :
    (initialise rows columns address s).par = s.par := rfl
@[simp] theorem initialise_live (rows columns : Word32) (address : Byte) (s : State) :
    (initialise rows columns address s).live = true := rfl
@[simp] theorem initialise_cfg (rows columns : Word32) (address : Byte) (s : State) :
    (initialise rows columns address s).cfg = { rows := rows, columns := columns, address := address } := rfl
@[simp] theorem initialise_pending (rows columns : Word32) (address : Byte) (s : State) :
    (initialise rows columns address s).pending = [] := rfl
@[simp] theorem initialise_handover (rows columns : Word32) (address : Byte) (s : State) :
    (initialise rows columns address s).handover = none := rfl
@[simp] theorem initialise_queue (rows columns : Word32) (address : Byte) (s : State) :
    (initialise rows columns address s).queue = [] := rfl
@[simp] theorem initialise_grid (rows columns : Word32) (address : Byte) (s : State) :
    (initialise rows columns address s).grid = [] := rfl
@[simp] theorem initialise_updatedCount (rows columns : Word32) (address : Byte) (s : State) :
    (initialise rows columns address s).updatedCount = 0#32 := rfl
@[simp] theorem initialise_snap (rows columns : Word32) (address : Byte) (s : State) :
    (initialise rows columns address s).snap = none := rfl
@[simp] theorem initialise_fault (rows columns : Word32) (address : Byte) (s : State) :
    (initialise rows columns address s).fault = { rxOverflow := false } := rfl
@[simp] theorem initialise_evt (rows columns : Word32) (address : Byte) (s : State) :
    (initialise rows columns address s).evt = [] := rfl
@[simp] theorem initialise_note (rows columns : Word32) (address : Byte) (s : State) :
    (initialise rows columns address s).note = [] := rfl
@[simp] theorem initialise_result (rows columns : Word32) (address : Byte) (s : State) :
    (initialise rows columns address s).result = .none := rfl
@[simp] theorem initialise_stim (rows columns : Word32) (address : Byte) (s : State) :
    (initialise rows columns address s).stim = s.stim := rfl
@[simp] theorem initialise_draws (rows columns : Word32) (address : Byte) (s : State) :
    (initialise rows columns address s).draws = s.draws := rfl

@[simp] theorem applyUpdate_par (u : PixelUpdate) (s : State) :
    (applyUpdate u s).par = s.par := rfl
@[simp] theorem applyUpdate_live (u : PixelUpdate) (s : State) :
    (applyUpdate u s).live = s.live := rfl
@[simp] theorem applyUpdate_cfg (u : PixelUpdate) (s : State) :
    (applyUpdate u s).cfg = s.cfg := rfl
@[simp] theorem applyUpdate_pending (u : PixelUpdate) (s : State) :
    (applyUpdate u s).pending = s.pending := rfl
@[simp] theorem applyUpdate_handover (u : PixelUpdate) (s : State) :
    (applyUpdate u s).handover = s.handover := rfl
@[simp] theorem applyUpdate_queue (u : PixelUpdate) (s : State) :
    (applyUpdate u s).queue = s.queue := rfl
@[simp] theorem applyUpdate_grid (u : PixelUpdate) (s : State) :
    (applyUpdate u s).grid = (applyPayload s.par.hexLowerOk s.cfg s.grid u.bits).grid := rfl
@[simp] theorem applyUpdate_updatedCount (u : PixelUpdate) (s : State) :
    (applyUpdate u s).updatedCount = (applyPayload s.par.hexLowerOk s.cfg s.grid u.bits).count := rfl
@[simp] theorem applyUpdate_snap (u : PixelUpdate) (s : State) :
    (applyUpdate u s).snap = s.snap := rfl
@[simp] theorem applyUpdate_fault (u : PixelUpdate) (s : State) :
    (applyUpdate u s).fault = s.fault := rfl
@[simp] theorem applyUpdate_evt (u : PixelUpdate) (s : State) :
    (applyUpdate u s).evt = s.evt := rfl
@[simp] theorem applyUpdate_note (u : PixelUpdate) (s : State) :
    (applyUpdate u s).note = s.note ++ [{ count := (applyPayload s.par.hexLowerOk s.cfg s.grid u.bits).count, hexErrs := hexErrs32 s.draws (applyPayload s.par.hexLowerOk s.cfg s.grid u.bits).hexErrs }] := rfl
@[simp] theorem applyUpdate_result (u : PixelUpdate) (s : State) :
    (applyUpdate u s).result = s.result := rfl
@[simp] theorem applyUpdate_stim (u : PixelUpdate) (s : State) :
    (applyUpdate u s).stim = s.stim := rfl
@[simp] theorem applyUpdate_draws (u : PixelUpdate) (s : State) :
    (applyUpdate u s).draws = s.draws + 1 := rfl

end Sys2Proof.Machine
end

