-- ==== Sys2Proof/Laws/Ops.lean ====
section
/-! SUPPORT. What each shared operation can do: the fields it leaves unchanged, and its cases. -/

namespace Sys2Proof.Machine

/-! ### Outcomes -/

theorem whenLive_of_live {s : State} (t : State) (h : s.live = true) : whenLive s t = .next t := by
  simp [whenLive, h]

theorem whenLive_beforeInit {s : State} (t : State) (h : s.live = false) : whenLive s t = .refused .beforeInit := by
  simp [whenLive, h]

/-- `whenLive` has a next state only after an INIT, and then the one it is given. -/
theorem whenLive_eq_next {s t u : State} : whenLive s t = .next u ↔ s.live = true ∧ t = u := by
  unfold whenLive
  cases s.live <;> simp

/-- INIT has a next state exactly where no dimension is 0. -/
theorem execInit_eq_next {rows columns : Word32} {address : Byte} {s t : State} :
    execInit rows columns address s = .next t ↔
      (rows ≠ 0#32 ∧ columns ≠ 0#32) ∧ initialise rows columns address s = t := by
  unfold execInit
  by_cases h : rows = 0#32 ∨ columns = 0#32
  · rw [if_pos h]
    constructor
    · intro hf; cases hf
    · rintro ⟨hn, -⟩; exact absurd h (by simpa using hn)
  · rw [if_neg h]
    simp only [Host.Outcome.next.injEq]
    exact ⟨fun ht => ⟨by simpa using h, ht⟩, fun ht => ht.2⟩

/-- SNAPRD has a next state exactly where there is a snapshot and the cell lies in the grid. -/
theorem execSnapRd_eq_next {r c : Word32} {s t : State} :
    execSnapRd r c s = .next t ↔
      s.live = true ∧ ∃ g, s.snap = some g ∧ inGrid s.cfg r.toNat c.toNat = true ∧
        returns (.bit (g.get r.toNat c.toNat)) s = t := by
  unfold execSnapRd
  cases s.live <;> cases s.snap with
  | none => simp
  | some g => by_cases h : inGrid s.cfg r.toNat c.toNat = true <;> simp [h]

/-! ### Reception -/

theorem rxReady_iff (s : State) : rxReady s = true ↔ s.handover = none ∧ s.fault.rxOverflow = false := by
  simp [rxReady]

theorem rxReady_eq_false (s : State) : rxReady s = false ↔ s.handover ≠ none ∨ s.fault.rxOverflow = true := by
  rw [← Bool.not_eq_true, rxReady_iff]
  cases s.fault.rxOverflow <;> simp

/-- Every operation that brings bytes is the arrival of its bytes (notes/assumptions/7.md). -/
theorem exec_of_wireBytes {i : Instr} {s : State} (hl : s.live = true) (h : wireBytes i ≠ []) :
    exec i s = .next (rxBytes (wireBytes i) s) := by
  cases i <;> first | exact absurd rfl h | exact whenLive_of_live _ hl

theorem takeFrame_evt (fr : List Byte) (s : State) :
    (takeFrame fr s).evt = s.evt ++ [eventOf (decodeFrame s.par.hexLowerOk s.cfg fr)] := by
  unfold takeFrame settleOutcome; split <;> rfl

@[simp] theorem takeFrame_pending (fr : List Byte) (s : State) : (takeFrame fr s).pending = [] := by
  unfold takeFrame settleOutcome; split <;> rfl

@[simp] theorem takeFrame_par (fr : List Byte) (s : State) : (takeFrame fr s).par = s.par := by
  unfold takeFrame settleOutcome; split <;> rfl
@[simp] theorem takeFrame_live (fr : List Byte) (s : State) : (takeFrame fr s).live = s.live := by
  unfold takeFrame settleOutcome; split <;> rfl
@[simp] theorem takeFrame_cfg (fr : List Byte) (s : State) : (takeFrame fr s).cfg = s.cfg := by
  unfold takeFrame settleOutcome; split <;> rfl
@[simp] theorem takeFrame_queue (fr : List Byte) (s : State) : (takeFrame fr s).queue = s.queue := by
  unfold takeFrame settleOutcome; split <;> rfl
@[simp] theorem takeFrame_grid (fr : List Byte) (s : State) : (takeFrame fr s).grid = s.grid := by
  unfold takeFrame settleOutcome; split <;> rfl
@[simp] theorem takeFrame_updatedCount (fr : List Byte) (s : State) : (takeFrame fr s).updatedCount = s.updatedCount := by
  unfold takeFrame settleOutcome; split <;> rfl
@[simp] theorem takeFrame_snap (fr : List Byte) (s : State) : (takeFrame fr s).snap = s.snap := by
  unfold takeFrame settleOutcome; split <;> rfl
@[simp] theorem takeFrame_fault (fr : List Byte) (s : State) : (takeFrame fr s).fault = s.fault := by
  unfold takeFrame settleOutcome; split <;> rfl
@[simp] theorem takeFrame_note (fr : List Byte) (s : State) : (takeFrame fr s).note = s.note := by
  unfold takeFrame settleOutcome; split <;> rfl
@[simp] theorem takeFrame_result (fr : List Byte) (s : State) : (takeFrame fr s).result = s.result := by
  unfold takeFrame settleOutcome; split <;> rfl
@[simp] theorem takeFrame_stim (fr : List Byte) (s : State) : (takeFrame fr s).stim = s.stim := by
  unfold takeFrame settleOutcome; split <;> rfl
@[simp] theorem takeFrame_draws (fr : List Byte) (s : State) : (takeFrame fr s).draws = s.draws := by
  unfold takeFrame settleOutcome; split <;> rfl

/-- RXBYTE where it is taken, with `P` at rest: overflow, a longer (or still empty) buffer, or a frame. -/
theorem rxTake_cases {s : State} (b : Byte) (hp : atRest s.pending = true) :
    (∃ p, stepByte s.pending b = (p, none) ∧ atRest p = true ∧
        (exceedsCap s.par.pendingCap p.length = true ∧ rxTake b s = raiseOverflow s ∨
          exceedsCap s.par.pendingCap p.length = false ∧ rxTake b s = { s with pending := p })) ∨
      (stepByte s.pending b = ([], some (s.pending ++ [b])) ∧ CutFrame (s.pending ++ [b]) ∧
        rxTake b s = takeFrame (s.pending ++ [b]) s) := by
  rcases stepByte_cases b hp with ⟨p, h, hr, -⟩ | ⟨h, hc⟩
  · refine .inl ⟨p, h, hr, ?_⟩
    cases hx : exceedsCap s.par.pendingCap p.length <;> simp [rxTake, h, hx]
  · exact .inr ⟨h, hc, by simp [rxTake, h]⟩

@[simp] theorem rxTake_par (b : Byte) (s : State) : (rxTake b s).par = s.par := by
  unfold rxTake; split
  · split <;> rfl
  · simp
@[simp] theorem rxTake_live (b : Byte) (s : State) : (rxTake b s).live = s.live := by
  unfold rxTake; split
  · split <;> rfl
  · simp
@[simp] theorem rxTake_cfg (b : Byte) (s : State) : (rxTake b s).cfg = s.cfg := by
  unfold rxTake; split
  · split <;> rfl
  · simp
@[simp] theorem rxTake_queue (b : Byte) (s : State) : (rxTake b s).queue = s.queue := by
  unfold rxTake; split
  · split <;> rfl
  · simp
@[simp] theorem rxTake_grid (b : Byte) (s : State) : (rxTake b s).grid = s.grid := by
  unfold rxTake; split
  · split <;> rfl
  · simp
@[simp] theorem rxTake_updatedCount (b : Byte) (s : State) : (rxTake b s).updatedCount = s.updatedCount := by
  unfold rxTake; split
  · split <;> rfl
  · simp
@[simp] theorem rxTake_snap (b : Byte) (s : State) : (rxTake b s).snap = s.snap := by
  unfold rxTake; split
  · split <;> rfl
  · simp
@[simp] theorem rxTake_note (b : Byte) (s : State) : (rxTake b s).note = s.note := by
  unfold rxTake; split
  · split <;> rfl
  · simp
@[simp] theorem rxTake_result (b : Byte) (s : State) : (rxTake b s).result = s.result := by
  unfold rxTake; split
  · split <;> rfl
  · simp
@[simp] theorem rxTake_stim (b : Byte) (s : State) : (rxTake b s).stim = s.stim := by
  unfold rxTake; split
  · split <;> rfl
  · simp
@[simp] theorem rxTake_draws (b : Byte) (s : State) : (rxTake b s).draws = s.draws := by
  unfold rxTake; split
  · split <;> rfl
  · simp

@[simp] theorem rxBytes_nil (s : State) : rxBytes [] s = s := rfl

theorem rxBytes_cons_ready {s : State} (b : Byte) (bs : List Byte) (h : rxReady s = true) :
    rxBytes (b :: bs) s = rxBytes bs (rxTake b s) := by simp [rxBytes, h]

theorem rxBytes_cons_blocked {s : State} (b : Byte) (bs : List Byte) (h : rxReady s = false) :
    rxBytes (b :: bs) s = offerAgain (b :: bs) s := by simp [rxBytes, h]

theorem rxBytes_one_ready {s : State} (b : Byte) (h : rxReady s = true) : rxBytes [b] s = rxTake b s := by
  simp [rxBytes, h]

/-- A property of states that RXBYTE and putting bytes back on offer keep is kept by the arrival of any bytes. -/
theorem rxBytes_keeps {R : State → Prop} (htake : ∀ b s, R s → rxReady s = true → R (rxTake b s))
    (hoffer : ∀ bs s, R s → R (offerAgain bs s)) (bs : List Byte) (s : State) (h : R s) : R (rxBytes bs s) := by
  induction bs generalizing s with
  | nil => exact h
  | cons b bs ih =>
    by_cases hr : rxReady s = true
    · rw [rxBytes_cons_ready b bs hr]; exact ih _ (htake b s h hr)
    · rw [rxBytes_cons_blocked b bs (by simpa using hr)]; exact hoffer _ _ h

@[simp] theorem rxBytes_par (bs : List Byte) (s : State) : (rxBytes bs s).par = s.par :=
  rxBytes_keeps (R := fun t => t.par = s.par) (fun b t h _ => by simpa using h) (fun bs t h => by simpa using h) bs s rfl
@[simp] theorem rxBytes_live (bs : List Byte) (s : State) : (rxBytes bs s).live = s.live :=
  rxBytes_keeps (R := fun t => t.live = s.live) (fun b t h _ => by simpa using h) (fun bs t h => by simpa using h) bs s rfl
@[simp] theorem rxBytes_cfg (bs : List Byte) (s : State) : (rxBytes bs s).cfg = s.cfg :=
  rxBytes_keeps (R := fun t => t.cfg = s.cfg) (fun b t h _ => by simpa using h) (fun bs t h => by simpa using h) bs s rfl
@[simp] theorem rxBytes_queue (bs : List Byte) (s : State) : (rxBytes bs s).queue = s.queue :=
  rxBytes_keeps (R := fun t => t.queue = s.queue) (fun b t h _ => by simpa using h) (fun bs t h => by simpa using h) bs s rfl
@[simp] theorem rxBytes_grid (bs : List Byte) (s : State) : (rxBytes bs s).grid = s.grid :=
  rxBytes_keeps (R := fun t => t.grid = s.grid) (fun b t h _ => by simpa using h) (fun bs t h => by simpa using h) bs s rfl
@[simp] theorem rxBytes_updatedCount (bs : List Byte) (s : State) : (rxBytes bs s).updatedCount = s.updatedCount :=
  rxBytes_keeps (R := fun t => t.updatedCount = s.updatedCount) (fun b t h _ => by simpa using h) (fun bs t h => by simpa using h) bs s rfl
@[simp] theorem rxBytes_snap (bs : List Byte) (s : State) : (rxBytes bs s).snap = s.snap :=
  rxBytes_keeps (R := fun t => t.snap = s.snap) (fun b t h _ => by simpa using h) (fun bs t h => by simpa using h) bs s rfl
@[simp] theorem rxBytes_note (bs : List Byte) (s : State) : (rxBytes bs s).note = s.note :=
  rxBytes_keeps (R := fun t => t.note = s.note) (fun b t h _ => by simpa using h) (fun bs t h => by simpa using h) bs s rfl
@[simp] theorem rxBytes_result (bs : List Byte) (s : State) : (rxBytes bs s).result = s.result :=
  rxBytes_keeps (R := fun t => t.result = s.result) (fun b t h _ => by simpa using h) (fun bs t h => by simpa using h) bs s rfl
@[simp] theorem rxBytes_draws (bs : List Byte) (s : State) : (rxBytes bs s).draws = s.draws :=
  rxBytes_keeps (R := fun t => t.draws = s.draws) (fun b t h _ => by simpa using h) (fun bs t h => by simpa using h) bs s rfl

/-! ### Hand-over and application -/

theorem enqueue_some {s : State} {u : PixelUpdate} (h : s.handover = some u) (hq : s.queue.length < s.par.queueCap) :
    enqueue s = { s with queue := s.queue ++ [u], handover := none } := by
  simp [enqueue, h, hq]

theorem enqueue_waits {s : State} (h : enqEnabled s = false) : enqueue s = s := by
  unfold enqueue
  cases hu : s.handover with
  | none => rfl
  | some u =>
    simp only [enqEnabled, hu, Option.isSome_some, Bool.true_and, decide_eq_false_iff_not] at h
    simp [h]

@[simp] theorem enqueue_par (s : State) : (enqueue s).par = s.par := by
  unfold enqueue; split
  · split <;> rfl
  · rfl
@[simp] theorem enqueue_live (s : State) : (enqueue s).live = s.live := by
  unfold enqueue; split
  · split <;> rfl
  · rfl
@[simp] theorem enqueue_cfg (s : State) : (enqueue s).cfg = s.cfg := by
  unfold enqueue; split
  · split <;> rfl
  · rfl
@[simp] theorem enqueue_pending (s : State) : (enqueue s).pending = s.pending := by
  unfold enqueue; split
  · split <;> rfl
  · rfl
@[simp] theorem enqueue_grid (s : State) : (enqueue s).grid = s.grid := by
  unfold enqueue; split
  · split <;> rfl
  · rfl
@[simp] theorem enqueue_updatedCount (s : State) : (enqueue s).updatedCount = s.updatedCount := by
  unfold enqueue; split
  · split <;> rfl
  · rfl
@[simp] theorem enqueue_snap (s : State) : (enqueue s).snap = s.snap := by
  unfold enqueue; split
  · split <;> rfl
  · rfl
@[simp] theorem enqueue_fault (s : State) : (enqueue s).fault = s.fault := by
  unfold enqueue; split
  · split <;> rfl
  · rfl
@[simp] theorem enqueue_evt (s : State) : (enqueue s).evt = s.evt := by
  unfold enqueue; split
  · split <;> rfl
  · rfl
@[simp] theorem enqueue_note (s : State) : (enqueue s).note = s.note := by
  unfold enqueue; split
  · split <;> rfl
  · rfl
@[simp] theorem enqueue_result (s : State) : (enqueue s).result = s.result := by
  unfold enqueue; split
  · split <;> rfl
  · rfl
@[simp] theorem enqueue_stim (s : State) : (enqueue s).stim = s.stim := by
  unfold enqueue; split
  · split <;> rfl
  · rfl
@[simp] theorem enqueue_draws (s : State) : (enqueue s).draws = s.draws := by
  unfold enqueue; split
  · split <;> rfl
  · rfl

theorem applyHead_cons {s : State} {u : PixelUpdate} {rest : List PixelUpdate} (h : s.queue = u :: rest) :
    applyHead s = applyUpdate u { s with queue := rest } := by
  simp [applyHead, h]

theorem applyHead_nil {s : State} (h : s.queue = []) : applyHead s = s := by
  simp [applyHead, h]

@[simp] theorem applyHead_par (s : State) : (applyHead s).par = s.par := by
  unfold applyHead; split <;> rfl
@[simp] theorem applyHead_live (s : State) : (applyHead s).live = s.live := by
  unfold applyHead; split <;> rfl
@[simp] theorem applyHead_cfg (s : State) : (applyHead s).cfg = s.cfg := by
  unfold applyHead; split <;> rfl
@[simp] theorem applyHead_pending (s : State) : (applyHead s).pending = s.pending := by
  unfold applyHead; split <;> rfl
@[simp] theorem applyHead_handover (s : State) : (applyHead s).handover = s.handover := by
  unfold applyHead; split <;> rfl
@[simp] theorem applyHead_snap (s : State) : (applyHead s).snap = s.snap := by
  unfold applyHead; split <;> rfl
@[simp] theorem applyHead_fault (s : State) : (applyHead s).fault = s.fault := by
  unfold applyHead; split <;> rfl
@[simp] theorem applyHead_evt (s : State) : (applyHead s).evt = s.evt := by
  unfold applyHead; split <;> rfl
@[simp] theorem applyHead_result (s : State) : (applyHead s).result = s.result := by
  unfold applyHead; split <;> rfl
@[simp] theorem applyHead_stim (s : State) : (applyHead s).stim = s.stim := by
  unfold applyHead; split <;> rfl

@[simp] theorem internalStep_par (s : State) : (internalStep s).par = s.par := by
  unfold internalStep; split
  · simp
  · split <;> simp
@[simp] theorem internalStep_live (s : State) : (internalStep s).live = s.live := by
  unfold internalStep; split
  · simp
  · split <;> simp
@[simp] theorem internalStep_cfg (s : State) : (internalStep s).cfg = s.cfg := by
  unfold internalStep; split
  · simp
  · split <;> simp
@[simp] theorem internalStep_pending (s : State) : (internalStep s).pending = s.pending := by
  unfold internalStep; split
  · simp
  · split <;> simp
@[simp] theorem internalStep_snap (s : State) : (internalStep s).snap = s.snap := by
  unfold internalStep; split
  · simp
  · split <;> simp
@[simp] theorem internalStep_fault (s : State) : (internalStep s).fault = s.fault := by
  unfold internalStep; split
  · simp
  · split <;> simp
@[simp] theorem internalStep_evt (s : State) : (internalStep s).evt = s.evt := by
  unfold internalStep; split
  · simp
  · split <;> simp
@[simp] theorem internalStep_result (s : State) : (internalStep s).result = s.result := by
  unfold internalStep; split
  · simp
  · split <;> simp
@[simp] theorem internalStep_stim (s : State) : (internalStep s).stim = s.stim := by
  unfold internalStep; split
  · simp
  · split <;> simp

/-! ### The published count -/

theorem CountPublished.of_eq {s t : State} (h : CountPublished s) (hc : t.updatedCount = s.updatedCount)
    (hn : t.note = s.note) : CountPublished t := by
  unfold CountPublished at *
  rw [hc, hn, h]

/-- An `apply` that is notified publishes its count, whatever was published before. -/
theorem countPublished_applyUpdate (u : PixelUpdate) (s : State) : CountPublished (applyUpdate u s) := by
  simp [CountPublished]

theorem CountPublished.applyHead {s : State} (h : CountPublished s) : CountPublished (applyHead s) := by
  unfold Machine.applyHead
  split
  · exact h
  · exact countPublished_applyUpdate _ _

/-! ### The reference machine -/

@[simp] theorem applyAll_nil (lowerOk : Bool) (cfg : DisplayConfig) (g : Grid) : applyAll lowerOk cfg g [] = [] := rfl

@[simp] theorem applyAll_cons (lowerOk : Bool) (cfg : DisplayConfig) (g : Grid) (u : PixelUpdate) (us : List PixelUpdate) :
    applyAll lowerOk cfg g (u :: us) = applyPayload lowerOk cfg g u.bits ::
      applyAll lowerOk cfg (applyPayload lowerOk cfg g u.bits).grid us := rfl

@[simp] theorem applyAll_length (lowerOk : Bool) (cfg : DisplayConfig) (g : Grid) (us : List PixelUpdate) :
    (applyAll lowerOk cfg g us).length = us.length := by
  induction us generalizing g with
  | nil => rfl
  | cons u us ih => simp [ih]

@[simp] theorem dispatchFrame_par (s : State) (f : List Byte) : (dispatchFrame s f).par = s.par := by
  unfold dispatchFrame dispatchOutcome; split <;> rfl
@[simp] theorem dispatchFrame_live (s : State) (f : List Byte) : (dispatchFrame s f).live = s.live := by
  unfold dispatchFrame dispatchOutcome; split <;> rfl
@[simp] theorem dispatchFrame_cfg (s : State) (f : List Byte) : (dispatchFrame s f).cfg = s.cfg := by
  unfold dispatchFrame dispatchOutcome; split <;> rfl
@[simp] theorem dispatchFrame_pending (s : State) (f : List Byte) : (dispatchFrame s f).pending = s.pending := by
  unfold dispatchFrame dispatchOutcome; split <;> rfl
@[simp] theorem dispatchFrame_handover (s : State) (f : List Byte) : (dispatchFrame s f).handover = s.handover := by
  unfold dispatchFrame dispatchOutcome; split <;> rfl
@[simp] theorem dispatchFrame_queue (s : State) (f : List Byte) : (dispatchFrame s f).queue = s.queue := by
  unfold dispatchFrame dispatchOutcome; split <;> rfl
@[simp] theorem dispatchFrame_snap (s : State) (f : List Byte) : (dispatchFrame s f).snap = s.snap := by
  unfold dispatchFrame dispatchOutcome; split <;> rfl
@[simp] theorem dispatchFrame_fault (s : State) (f : List Byte) : (dispatchFrame s f).fault = s.fault := by
  unfold dispatchFrame dispatchOutcome; split <;> rfl
@[simp] theorem dispatchFrame_result (s : State) (f : List Byte) : (dispatchFrame s f).result = s.result := by
  unfold dispatchFrame dispatchOutcome; split <;> rfl
@[simp] theorem dispatchFrame_stim (s : State) (f : List Byte) : (dispatchFrame s f).stim = s.stim := by
  unfold dispatchFrame dispatchOutcome; split <;> rfl

/-- A property of states that one frame keeps is kept by a sequence of frames. -/
theorem dispatchFrames_keep {R : State → Prop} (hf : ∀ s f, R s → R (dispatchFrame s f)) (fs : List (List Byte))
    (s : State) (h : R s) : R (fs.foldl dispatchFrame s) := by
  induction fs generalizing s with
  | nil => exact h
  | cons f fs ih => exact ih _ (hf s f h)

theorem dispatch_eq (chunk : List Byte) (s : State) :
    dispatch chunk s = (feed s.pending chunk).2.foldl dispatchFrame { s with pending := (feed s.pending chunk).1 } := rfl

@[simp] theorem dispatch_par (chunk : List Byte) (s : State) : (dispatch chunk s).par = s.par :=
  dispatchFrames_keep (R := fun t => t.par = s.par) (fun t g h => by simpa using h) _ _ rfl
@[simp] theorem dispatch_live (chunk : List Byte) (s : State) : (dispatch chunk s).live = s.live :=
  dispatchFrames_keep (R := fun t => t.live = s.live) (fun t g h => by simpa using h) _ _ rfl
@[simp] theorem dispatch_cfg (chunk : List Byte) (s : State) : (dispatch chunk s).cfg = s.cfg :=
  dispatchFrames_keep (R := fun t => t.cfg = s.cfg) (fun t g h => by simpa using h) _ _ rfl
@[simp] theorem dispatch_handover (chunk : List Byte) (s : State) : (dispatch chunk s).handover = s.handover :=
  dispatchFrames_keep (R := fun t => t.handover = s.handover) (fun t g h => by simpa using h) _ _ rfl
@[simp] theorem dispatch_queue (chunk : List Byte) (s : State) : (dispatch chunk s).queue = s.queue :=
  dispatchFrames_keep (R := fun t => t.queue = s.queue) (fun t g h => by simpa using h) _ _ rfl
@[simp] theorem dispatch_snap (chunk : List Byte) (s : State) : (dispatch chunk s).snap = s.snap :=
  dispatchFrames_keep (R := fun t => t.snap = s.snap) (fun t g h => by simpa using h) _ _ rfl
@[simp] theorem dispatch_fault (chunk : List Byte) (s : State) : (dispatch chunk s).fault = s.fault :=
  dispatchFrames_keep (R := fun t => t.fault = s.fault) (fun t g h => by simpa using h) _ _ rfl
@[simp] theorem dispatch_result (chunk : List Byte) (s : State) : (dispatch chunk s).result = s.result :=
  dispatchFrames_keep (R := fun t => t.result = s.result) (fun t g h => by simpa using h) _ _ rfl
@[simp] theorem dispatch_stim (chunk : List Byte) (s : State) : (dispatch chunk s).stim = s.stim :=
  dispatchFrames_keep (R := fun t => t.stim = s.stim) (fun t g h => by simpa using h) _ _ rfl

@[simp] theorem dispatch_pending (chunk : List Byte) (s : State) : (dispatch chunk s).pending = (feed s.pending chunk).1 :=
  dispatchFrames_keep (R := fun t => t.pending = (feed s.pending chunk).1) (fun t g h => by simpa using h) _ _ rfl

end Sys2Proof.Machine
end

