-- ==== Sys2Proof/Laws/PerInstr.lean ====
section
/-! SUPPORT. Facts about every operation as text, one lemma per constructor: its encoding opens with the tag of its format. -/

namespace Sys2Proof.Laws

/-- The format an operation is encoded in. -/
def instrFormat : Instr → Format
  | .stx => .byteClass
  | .etx => .byteClass
  | .other _ => .byteClass
  | .hex07 _ => .hexDigit
  | .hex89 _ => .hexDigit
  | .hexUpA => .hexDigit
  | .hexUpBC _ => .hexDigit
  | .hexUpDE _ => .hexDigit
  | .hexUpF => .hexDigit
  | .hexLoA => .hexDigit
  | .hexLoBC _ => .hexDigit
  | .hexLoDE _ => .hexDigit
  | .hexLoF => .hexDigit
  | .notHex _ => .hexDigit
  | .frameHeader _ _ _ => .header
  | .framePayloadPair _ _ => .pair
  | .frameTrailer _ _ => .trailer
  | .init _ _ _ => .hostStrobe
  | .snapshot => .hostStrobe
  | .rxByte _ => .handshake
  | .enq => .rxSelect
  | .applyQ => .wrSelect
  | .snapRd _ _ => .snapRd
  | .rdCount => .rdCount
  | .evtOk _ => .event
  | .evtTooShort => .event
  | .evtInvalidFraming => .event
  | .evtChecksumMismatch => .event
  | .evtNotAddressedToUs => .event
  | .feedFn _ => .feed
  | .stepFn _ => .step
  | .hexvalFn _ => .hexval
  | .hexpairFn _ _ => .hexpair
  | .cksumFn _ => .cksum
  | .decodeFn _ => .decode
  | .applyFn _ => .apply
  | .snapshotFn => .snapshot
  | .dispatchFn _ => .dispatch

/-- The encoding of an operation opens with its format's tag. -/
def Tagged.Statement (i : Instr) : Prop := (encode i).head? = some (formatTag (instrFormat i))

theorem Tagged.stx : Tagged.Statement .stx := rfl
theorem Tagged.etx : Tagged.Statement .etx := rfl
theorem Tagged.other : ∀ b, Tagged.Statement (.other b) := by
  intros; rfl
theorem Tagged.hex07 : ∀ d, Tagged.Statement (.hex07 d) := by
  intros; rfl
theorem Tagged.hex89 : ∀ d, Tagged.Statement (.hex89 d) := by
  intros; rfl
theorem Tagged.hexUpA : Tagged.Statement .hexUpA := rfl
theorem Tagged.hexUpBC : ∀ d, Tagged.Statement (.hexUpBC d) := by
  intros; rfl
theorem Tagged.hexUpDE : ∀ d, Tagged.Statement (.hexUpDE d) := by
  intros; rfl
theorem Tagged.hexUpF : Tagged.Statement .hexUpF := rfl
theorem Tagged.hexLoA : Tagged.Statement .hexLoA := rfl
theorem Tagged.hexLoBC : ∀ d, Tagged.Statement (.hexLoBC d) := by
  intros; rfl
theorem Tagged.hexLoDE : ∀ d, Tagged.Statement (.hexLoDE d) := by
  intros; rfl
theorem Tagged.hexLoF : Tagged.Statement .hexLoF := rfl
theorem Tagged.notHex : ∀ c, Tagged.Statement (.notHex c) := by
  intros; rfl
theorem Tagged.frameHeader : ∀ cmd addr res, Tagged.Statement (.frameHeader cmd addr res) := by
  intros; rfl
theorem Tagged.framePayloadPair : ∀ h l, Tagged.Statement (.framePayloadPair h l) := by
  intros; rfl
theorem Tagged.frameTrailer : ∀ h l, Tagged.Statement (.frameTrailer h l) := by
  intros; rfl
theorem Tagged.init : ∀ rows columns address, Tagged.Statement (.init rows columns address) := by
  intros; rfl
theorem Tagged.snapshot : Tagged.Statement .snapshot := rfl
theorem Tagged.rxByte : ∀ b, Tagged.Statement (.rxByte b) := by
  intros; rfl
theorem Tagged.enq : Tagged.Statement .enq := rfl
theorem Tagged.applyQ : Tagged.Statement .applyQ := rfl
theorem Tagged.snapRd : ∀ r c, Tagged.Statement (.snapRd r c) := by
  intros; rfl
theorem Tagged.rdCount : Tagged.Statement .rdCount := rfl
theorem Tagged.evtOk : ∀ w, Tagged.Statement (.evtOk w) := by
  intros; rfl
theorem Tagged.evtTooShort : Tagged.Statement .evtTooShort := rfl
theorem Tagged.evtInvalidFraming : Tagged.Statement .evtInvalidFraming := rfl
theorem Tagged.evtChecksumMismatch : Tagged.Statement .evtChecksumMismatch := rfl
theorem Tagged.evtNotAddressedToUs : Tagged.Statement .evtNotAddressedToUs := rfl
theorem Tagged.feedFn : ∀ chunk, Tagged.Statement (.feedFn chunk) := by
  intros; rfl
theorem Tagged.stepFn : ∀ b, Tagged.Statement (.stepFn b) := by
  intros; rfl
theorem Tagged.hexvalFn : ∀ c, Tagged.Statement (.hexvalFn c) := by
  intros; rfl
theorem Tagged.hexpairFn : ∀ c0 c1, Tagged.Statement (.hexpairFn c0 c1) := by
  intros; rfl
theorem Tagged.cksumFn : ∀ f, Tagged.Statement (.cksumFn f) := by
  intros; rfl
theorem Tagged.decodeFn : ∀ f, Tagged.Statement (.decodeFn f) := by
  intros; rfl
theorem Tagged.applyFn : ∀ payload, Tagged.Statement (.applyFn payload) := by
  intros; rfl
theorem Tagged.snapshotFn : Tagged.Statement .snapshotFn := rfl
theorem Tagged.dispatchFn : ∀ chunk, Tagged.Statement (.dispatchFn chunk) := by
  intros; rfl

end Sys2Proof.Laws
end

