-- ==== Sys2Proof/Laws/Step.lean ====
section
/-! SUPPORT. What one step of the machine can be, and a run of one step more. -/

namespace Sys2Proof.Machine

/-- With an empty script HFR's own agents have the step. -/
theorem step_of_empty {s : State} (h : s.stim = []) (hl : s.live = true) : step s = .next (internalStep s) := by
  rw [step, if_pos h, whenLive_of_live _ hl]

theorem stim_ne_nil_of_decode {s : State} {r : Instr × List Byte} (h : decode s.par.hexLowerOk s.stim = .ok r) :
    s.stim ≠ [] := by
  intro h0
  rw [h0] at h
  cases h

/-- The script's operation runs. -/
theorem step_of_script {s : State} {i : Instr} {rest : List Byte} (h : decode s.par.hexLowerOk s.stim = .ok (i, rest))
    (hb : rxBlocked i s = false) : step s = exec i { s with stim := rest } := by
  simp [step, stim_ne_nil_of_decode h, fetch, h, hb]

/-- A blocked reception leaves the step to HFR's own agents. -/
theorem step_of_blocked {s : State} {i : Instr} {rest : List Byte} (h : decode s.par.hexLowerOk s.stim = .ok (i, rest))
    (hb : rxBlocked i s = true) : step s = .next (internalStep s) := by
  simp [step, stim_ne_nil_of_decode h, fetch, h, hb]

/-- The cases of a step that has a next state. -/
theorem step_cases {s t : State} (h : step s = .next t) :
    t = internalStep s ∨
      ∃ i rest, decode s.par.hexLowerOk s.stim = .ok (i, rest) ∧ exec i { s with stim := rest } = .next t := by
  by_cases h0 : s.stim = []
  · rw [step, if_pos h0, whenLive_eq_next] at h
    exact .inl h.2.symm
  · rw [step, if_neg h0, fetch] at h
    cases hd : decode s.par.hexLowerOk s.stim with
    | error e => rw [hd] at h; cases h
    | ok r =>
      obtain ⟨i, rest⟩ := r
      by_cases hb : rxBlocked i s = true
      · simp only [hd, hb, if_true, Host.Outcome.next.injEq] at h
        exact .inl h.symm
      · simp only [hd, if_neg hb] at h
        exact .inr ⟨i, rest, rfl, h⟩

theorem run_succ (M : Host.Core) {n : Nat} {s t : M.State} (h : M.step s = .next t) : M.run (n + 1) s = M.run n t := by
  simp only [Host.Core.run, h]

/-- A run of one step more, once its first step is known. -/
theorem core_run_succ {n : Nat} {s t : State} (h : step s = .next t) :
    Host.Core.run Sys2Proof.core (n + 1) s = Host.Core.run Sys2Proof.core n t := run_succ Sys2Proof.core h

end Sys2Proof.Machine
end

