-- ==== Sys2Proof/Tests/Slice0.lean ====
section
/-! SUPPORT. Tests of the model. Expected values come from the spec: its examples, its vectors (95_test_vectors.md) and words
written out from 30_encoding.md. Then, for each statement with hypotheses, states and operands that meet them. -/

open Sys2Proof Sys2Proof.Machine

namespace Sys2Proof.Tests

/-! ### Small states -/

/-- The state a step leads to, if it has one. -/
def nextOf : Host.Outcome State Fault Refusal → Option State
  | .next s => some s
  | _ => none

/-- The refusal, if there is one. -/
def refusalOf : Host.Outcome State Fault Refusal → Option Refusal
  | .refused r => some r
  | _ => none

/-- A unit after `INIT 8 4 0x01`. -/
def unit : State := { State.reset with cfg := { rows := 8#32, columns := 4#32, address := 0x01#8 } }

/-- The unit with a carry-over buffer. -/
def withPending (p : List Byte) : State := { unit with pending := p }

/-- The body of the frame of V-D3: command, address, resolution, "FF00A5". -/
def body : List Byte := [0x11#8, 0x01#8, 0x00#8, 0x04#8, 0x46#8, 0x46#8, 0x30#8, 0x30#8, 0x41#8, 0x35#8]

/-- The payload "FF00A5". -/
def payload : List Byte := [0x46#8, 0x46#8, 0x30#8, 0x30#8, 0x41#8, 0x35#8]

/-- The frame of V-D3. -/
def frame : List Byte := [0x02#8] ++ body ++ [0x03#8, 0x38#8, 0x41#8]

/-- The update of V-D3. -/
def update : PixelUpdate := { address := 0x01#8, resolution := 4#16, bits := payload, resWarn := false }

/-- The unit holding an update RX has not handed over. -/
def holding : State := { unit with handover := some update }

/-- The unit with one update waiting. -/
def waiting : State := { unit with queue := [update] }

/-- A unit whose queue has one place. -/
def oneDeep : State := { unit with par := { Config.reference with queueCap := 1 } }

/-- A unit whose buffer has `cap` bytes. -/
def capped (cap : Nat) (p : List Byte) : State :=
  { unit with par := { Config.reference with pendingCap := some cap }, pending := p }

/-- A capped unit after an overflow. -/
def overflowed : State := { capped 2 [0x02#8, 0x11#8] with fault := { rxOverflow := true } }

/-- A unit before its first INIT. -/
def dead : State := { unit with live := false }

/-- The cells V-B9 turns on: column 0, rows 0 to 7; column 2, rows 0, 2, 5, 7. -/
def gridG1 : Grid :=
  [(0, 0), (1, 0), (2, 0), (3, 0), (4, 0), (5, 0), (6, 0), (7, 0), (0, 2), (2, 2), (5, 2), (7, 2)]

/-! ### WellFormed: an ill-formed term for each check -/

theorem test_wellFormed_other_is_no_marker :
    (Instr.other 0x02#8).wellFormed true = false ∧ (Instr.other 0x03#8).wellFormed true = false ∧
    (Instr.other 0x04#8).wellFormed true = true := by decide

theorem test_wellFormed_notHex_is_no_digit :
    (Instr.notHex 0x41#8).wellFormed true = false ∧ (Instr.notHex 0x39#8).wellFormed true = false ∧
    (Instr.notHex 0x66#8).wellFormed true = false ∧ (Instr.notHex 0x66#8).wellFormed false = true ∧
    (Instr.notHex 0x47#8).wellFormed true = true := by decide

theorem test_wellFormed_lower_case_needs_the_parameter :
    Instr.hexLoA.wellFormed false = false ∧ (Instr.hexLoBC 0#1).wellFormed false = false ∧
    (Instr.hexLoDE 1#1).wellFormed false = false ∧ Instr.hexLoF.wellFormed false = false ∧
    Instr.hexLoF.wellFormed true = true := by decide

theorem test_wellFormed_sequence_too_long (l : List Byte) (h : l.length = 2 ^ 32) :
    (Instr.feedFn l).wellFormed true = false ∧ (Instr.cksumFn l).wellFormed true = false ∧
    (Instr.decodeFn l).wellFormed true = false ∧ (Instr.applyFn l).wellFormed true = false ∧
    (Instr.dispatchFn l).wellFormed true = false := by
  simp only [Instr.wellFormed, h, Nat.lt_irrefl, decide_false, and_self]

/-! ### Decode: words written out from 30_encoding.md, every constructor -/

/-- R56. -/
theorem test_decode_byte_classes :
    decodeByteClass 0b00000010#8 = .stx ∧ decodeByteClass 0b00000011#8 = .etx ∧
    decodeByteClass 0b00000100#8 = .other 0x04#8 ∧ decodeByteClass 0b00000000#8 = .other 0x00#8 := by decide

/-- R57, the numerals. -/
theorem test_decode_numerals :
    decodeHexDigit true 0b00110000#8 = .hex07 0#3 ∧ decodeHexDigit true 0b00110101#8 = .hex07 5#3 ∧
    decodeHexDigit true 0b00111000#8 = .hex89 0#1 ∧ decodeHexDigit true 0b00111001#8 = .hex89 1#1 ∧
    decodeHexDigit true 0b00111010#8 = .notHex 0x3A#8 ∧ decodeHexDigit true 0b00101111#8 = .notHex 0x2F#8 := by decide

/-- R57, upper case. -/
theorem test_decode_upper_case :
    decodeHexDigit true 0b01000001#8 = .hexUpA ∧ decodeHexDigit true 0b01000010#8 = .hexUpBC 0#1 ∧
    decodeHexDigit true 0b01000011#8 = .hexUpBC 1#1 ∧ decodeHexDigit true 0b01000100#8 = .hexUpDE 0#1 ∧
    decodeHexDigit true 0b01000101#8 = .hexUpDE 1#1 ∧ decodeHexDigit true 0b01000110#8 = .hexUpF ∧
    decodeHexDigit true 0b01000111#8 = .notHex 0x47#8 := by decide

/-- R57, lower case, with and without `HEX_LOWER_OK`. -/
theorem test_decode_lower_case :
    decodeHexDigit true 0b01100001#8 = .hexLoA ∧ decodeHexDigit true 0b01100011#8 = .hexLoBC 1#1 ∧
    decodeHexDigit true 0b01100100#8 = .hexLoDE 0#1 ∧ decodeHexDigit true 0b01100110#8 = .hexLoF ∧
    decodeHexDigit true 0b01100111#8 = .notHex 0x67#8 ∧ decodeHexDigit false 0b01100001#8 = .notHex 0x61#8 := by decide

/-- R50: header `02 11 01 00 C0`, pair "A5", trailer `03 37 30`; a wrong marker is refused by name. -/
theorem test_decode_frame_fields :
    (decode true [0x03#8, 0x02#8, 0x11#8, 0x01#8, 0x00#8, 0xC0#8]).toOption =
      some (.frameHeader 0x11#8 0x01#8 192#16, []) ∧
    (decode true [0x04#8, 0x41#8, 0x35#8]).toOption = some (.framePayloadPair 0x41#8 0x35#8, []) ∧
    (decode true [0x05#8, 0x03#8, 0x37#8, 0x30#8]).toOption = some (.frameTrailer 0x37#8 0x30#8, []) ∧
    (decode true [0x05#8, 0x04#8, 0x37#8, 0x30#8]) = .error (.badMarker 0x04#8) := by
  refine ⟨?_, ?_, ?_, rfl⟩ <;> decide

/-- R62: `rst` wins over `snap_req`; `00` is no request. -/
theorem test_decode_host_strobes :
    (decode true [0x06#8, 0b10#8, 0#8, 0#8, 0#8, 8#8, 0#8, 0#8, 1#8, 4#8, 1#8]).toOption =
      some (.init 8#32 260#32 0x01#8, []) ∧
    (decode true [0x06#8, 0b11#8, 0#8, 0#8, 0#8, 8#8, 0#8, 0#8, 0#8, 4#8, 1#8]).toOption =
      some (.init 8#32 4#32 0x01#8, []) ∧
    (decode true [0x06#8, 0b01#8]).toOption = some (.snapshot, []) ∧
    (decode true [0x06#8, 0b00#8]) = .error .noRequest := by
  refine ⟨?_, ?_, ?_, rfl⟩ <;> decide

/-- R62: the selection vectors; another value selects nothing. -/
theorem test_decode_selections :
    (decode true [0x07#8, 0b11#8, 0xFF#8]).toOption = some (.rxByte 0xFF#8, []) ∧
    (decode true [0x08#8, 0b10#8]).toOption = some (.enq, []) ∧
    (decode true [0x09#8, 0b1#8]).toOption = some (.applyQ, []) ∧
    decode true [0x08#8, 0b11#8] = .error (.notSelected 3#8) := by
  refine ⟨?_, ?_, ?_, rfl⟩ <;> decide

/-- R60: the port reads. -/
theorem test_decode_port_reads :
    (decode true [0x0A#8, 0#8, 0#8, 0#8, 7#8, 0#8, 0#8, 1#8, 2#8]).toOption = some (.snapRd 7#32 258#32, []) ∧
    (decode true [0x0B#8, 0xEE#8]).toOption = some (.rdCount, [0xEE#8]) := by
  constructor <;> decide

/-- R61: codes 0 to 4; 5 to 7 are never emitted. -/
theorem test_decode_event_codes :
    (decode true [0x0C#8, 0b000#8, 1#8]).toOption = some (.evtOk true, []) ∧
    (decode true [0x0C#8, 0b001#8]).toOption = some (.evtTooShort, []) ∧
    (decode true [0x0C#8, 0b010#8]).toOption = some (.evtInvalidFraming, []) ∧
    (decode true [0x0C#8, 0b011#8]).toOption = some (.evtChecksumMismatch, []) ∧
    (decode true [0x0C#8, 0b100#8]).toOption = some (.evtNotAddressedToUs, []) ∧
    decode true [0x0C#8, 0b101#8] = .error (.reservedEventCode 5#8) := by
  refine ⟨?_, ?_, ?_, ?_, ?_, rfl⟩ <;> decide

/-- The function rows. -/
theorem test_decode_calls :
    (decode true [0x10#8, 0#8, 0#8, 0#8, 2#8, 0x41#8, 0x02#8, 0x99#8]).toOption =
      some (.feedFn [0x41#8, 0x02#8], [0x99#8]) ∧
    (decode true [0x11#8, 0x30#8]).toOption = some (.stepFn 0x30#8, []) ∧
    (decode true [0x12#8, 0x46#8]).toOption = some (.hexvalFn 0x46#8, []) ∧
    (decode true [0x13#8, 0x41#8, 0x35#8]).toOption = some (.hexpairFn 0x41#8 0x35#8, []) ∧
    (decode true [0x17#8]).toOption = some (.snapshotFn, []) ∧
    decode true [0x18#8, 0#8, 0#8, 0#8, 2#8, 0x41#8] = .error .truncated := by
  refine ⟨?_, ?_, ?_, ?_, ?_, rfl⟩ <;> decide

theorem test_decode_calls_with_sequences :
    (decode true [0x14#8, 0#8, 0#8, 0#8, 1#8, 0x02#8]).toOption = some (.cksumFn [0x02#8], []) ∧
    (decode true [0x15#8, 0#8, 0#8, 0#8, 0#8]).toOption = some (.decodeFn [], []) ∧
    (decode true [0x16#8, 0#8, 0#8, 0#8, 1#8, 0x46#8]).toOption = some (.applyFn [0x46#8], []) ∧
    (decode true [0x18#8, 0#8, 0#8, 0#8, 1#8, 0x02#8]).toOption = some (.dispatchFn [0x02#8], []) ∧
    decode true [0x0D#8] = .error (.unknownFormat 0x0D#8) := by
  refine ⟨?_, ?_, ?_, ?_, rfl⟩ <;> decide

/-! ### One step each, from the spec's examples and vectors -/

/-- 40_reassembler.md R70's example (V-R14). -/
theorem test_feed :
    (nextOf (exec (.feedFn [0x41#8, 0x02#8, 0x11#8, 0x03#8, 0x37#8, 0x30#8, 0x42#8]) unit)).map
      (fun t => (t.pending, t.result)) = some ([], .frames [[0x02#8, 0x11#8, 0x03#8, 0x37#8, 0x30#8]]) := by decide

/-- V-R9: two frames from one chunk, the first with the trailer bytes `02 03`. -/
theorem test_feed_two_frames :
    (nextOf (exec (.feedFn [0x02#8, 0x41#8, 0x03#8, 0x02#8, 0x03#8, 0x02#8, 0x41#8, 0x03#8, 0x37#8, 0x30#8]) unit)).map
      (fun t => (t.pending, t.result)) =
        some ([], .frames [[0x02#8, 0x41#8, 0x03#8, 0x02#8, 0x03#8], [0x02#8, 0x41#8, 0x03#8, 0x37#8, 0x30#8]]) := by
  decide

/-- 40_reassembler.md R71's example. -/
theorem test_step :
    (nextOf (exec (.stepFn 0x30#8) (withPending [0x02#8, 0x11#8, 0x03#8, 0x37#8]))).map (fun t => (t.pending, t.result)) =
      some ([], .frame (some [0x02#8, 0x11#8, 0x03#8, 0x37#8, 0x30#8])) := by decide

/-- 41_decoder.md R80, R81's examples; V-H9, V-H11. -/
theorem test_hex :
    (nextOf (exec (.hexvalFn 0x46#8) unit)).map State.result = some (.digit (some 15#4)) ∧
    (nextOf (exec (.hexvalFn 0x47#8) unit)).map State.result = some (.digit none) ∧
    (nextOf (exec (.hexpairFn 0x37#8 0x30#8) unit)).map State.result = some (.pair (some 0x70#8)) ∧
    (nextOf (exec (.hexpairFn 0x35#8 0x41#8) unit)).map State.result = some (.pair (some 0x5A#8)) ∧
    (nextOf (exec (.hexpairFn 0x30#8 0x47#8) unit)).map State.result = some (.pair none) := by decide

/-- V-K3 (the sum less 2 wraps) and V-K9. -/
theorem test_cksum :
    (nextOf (exec (.cksumFn [0x02#8, 0#8, 0#8, 0#8, 0#8, 0#8, 0x03#8, 0x30#8, 0x32#8]) unit)).map State.result =
      some (.cksum 0x02#8) ∧
    (nextOf (exec (.cksumFn frame) unit)).map State.result = some (.cksum 0x8A#8) := by decide

/-- V-D3. -/
theorem test_decode_ok :
    (nextOf (exec (.decodeFn frame) unit)).map State.result = some (.outcome (.ok update)) := by decide

/-- V-D2, V-D8, V-D7, V-D10: length, checksum before address, address, markers. -/
theorem test_decode_failures :
    (nextOf (exec (.decodeFn [0x02#8, 0x11#8, 0x01#8, 0x00#8, 0x04#8, 0x03#8, 0x45#8, 0x43#8]) unit)).map State.result =
      some (.outcome .tooShort) ∧
    (nextOf (exec (.decodeFn (frame.set 2 0x02#8)) unit)).map State.result = some (.outcome .checksumMismatch) ∧
    (nextOf (exec (.decodeFn ((frame.set 2 0x02#8).set 13 0x39#8)) unit)).map State.result =
      some (.outcome .notAddressedToUs) ∧
    (nextOf (exec (.decodeFn (frame.set 0 0x01#8)) unit)).map State.result = some (.outcome .invalidFraming) := by decide

/-- V-B9. -/
theorem test_apply :
    (nextOf (exec (.applyFn payload) unit)).map (fun t => (t.grid, t.result)) = some (gridG1, .applied 12#32 0) := by
  decide +kernel

/-- V-B19: pairs beyond the last column write nothing, and are still parsed. -/
theorem test_apply_out_of_bounds :
    (nextOf (exec (.applyFn [0x30#8, 0x31#8, 0x30#8, 0x32#8, 0x30#8, 0x34#8, 0x30#8, 0x38#8, 0x31#8, 0x30#8, 0x5A#8, 0x5A#8])
      unit)).map (fun t => (t.grid, t.result)) = some ([(7, 0), (6, 1), (5, 2), (4, 3)], .applied 4#32 1) := by decide +kernel

/-- 43_dispatcher.md R101's example. -/
theorem test_rxByte :
    (nextOf (exec (.rxByte 0x30#8) (withPending [0x02#8, 0x11#8, 0x03#8, 0x37#8]))).map
      (fun t => (t.pending, t.evt, t.handover)) = some ([], [{ code := .tooShort, resWarn := false }], none) := by decide

/-- 43_dispatcher.md R101: with a capacity of 2 a third byte at rest overflows and is lost. -/
theorem test_rxByte_overflow :
    (nextOf (exec (.rxByte 0x41#8) (capped 2 [0x02#8, 0x11#8]))).map (fun t => (t.pending, t.fault.rxOverflow)) =
      some ([0x02#8, 0x11#8], true) := by decide

/-- The fields of V-D3's frame, as they arrive. -/
theorem test_frame_fields :
    (nextOf (exec (.frameHeader 0x11#8 0x01#8 4#16) unit)).map State.pending = some [0x02#8, 0x11#8, 0x01#8, 0x00#8, 0x04#8] ∧
    (nextOf (exec (.framePayloadPair 0x46#8 0x46#8) (withPending [0x02#8, 0x11#8]))).map State.pending =
      some [0x02#8, 0x11#8, 0x46#8, 0x46#8] ∧
    (nextOf (exec (.frameTrailer 0x38#8 0x41#8) (withPending ([0x02#8] ++ body)))).map
      (fun t => (t.pending, t.handover, t.evt)) = some ([], some update, [{ code := .ok, resWarn := false }]) := by decide

/-- 43_dispatcher.md R101, R112: with room for 2 bytes the third byte of a header overflows and is lost; the last two are not
taken and stay on offer. -/
theorem test_field_cut_by_overflow :
    (nextOf (exec (.frameHeader 0x11#8 0x01#8 4#16) (capped 2 []))).map (fun t => (t.pending, t.fault.rxOverflow, t.stim)) =
      some ([0x02#8, 0x11#8], true, [0x07#8, 0x03#8, 0x00#8, 0x07#8, 0x03#8, 0x04#8]) := by decide

/-- 43_dispatcher.md R102's example, and the step once there is room. -/
theorem test_enq :
    (nextOf (exec .enq { oneDeep with queue := [update], handover := some update })).map
      (fun t => (t.queue.length, t.handover)) = some (1, some update) ∧
    (nextOf (exec .enq { oneDeep with handover := some update })).map (fun t => (t.queue, t.handover)) =
      some ([update], none) := by decide

/-- 43_dispatcher.md R103's example. -/
theorem test_applyQ :
    (nextOf (exec .applyQ waiting)).map (fun t => (t.queue, t.grid, t.updatedCount, t.note)) =
      some ([], gridG1, 12#32, [{ count := 12#32, hexErrs := 0#32 }]) := by decide +kernel

/-- 43_dispatcher.md R107's example, and its refusals. -/
theorem test_snapRd :
    (nextOf (exec (.snapRd 7#32 2#32) { unit with snap := some gridG1 })).map State.result = some (.bit true) ∧
    (nextOf (exec (.snapRd 6#32 2#32) { unit with snap := some gridG1 })).map State.result = some (.bit false) ∧
    refusalOf (exec (.snapRd 8#32 0#32) { unit with snap := some gridG1 }) = some .snapReadOutOfRange ∧
    refusalOf (exec (.snapRd 0#32 0#32) unit) = some .snapReadBeforeSnapshot := by decide

/-- 43_dispatcher.md R106, R108 after R103's example. -/
theorem test_snapshot_rdCount :
    (nextOf (exec .snapshot { unit with grid := gridG1 })).map State.snap = some (some gridG1) ∧
    (nextOf (exec .rdCount { unit with updatedCount := 12#32 })).map State.result = some (.count 12#32) := by decide

/-- 43_dispatcher.md R100: an overflowed unit with a held update and a snapshot starts afresh; a dimension of 0 is refused. -/
theorem test_init :
    nextOf (exec (.init 8#32 4#32 0x01#8)
      { overflowed with handover := some update, snap := some gridG1, updatedCount := 3#32, draws := 0 }) =
        some { capped 2 [] with pending := [] } ∧
    refusalOf (exec (.init 0#32 4#32 0x01#8) unit) = some .initZeroDimension ∧
    refusalOf (exec (.init 8#32 0#32 0x01#8) dead) = some .initZeroDimension := by decide

/-- 43_dispatcher.md R104 on V-D3's frame. -/
theorem test_dispatch :
    (nextOf (exec (.dispatchFn frame) unit)).map (fun t => (t.grid, t.updatedCount, t.evt)) =
      some (gridG1, 12#32, [{ code := .ok, resWarn := false }]) := by decide +kernel

/-- With an empty script: ENQ, then APPLYQ, then nothing (43_dispatcher.md R109, R110). -/
theorem test_internal_steps :
    (nextOf (step holding)).map (fun t => (t.queue, t.handover)) = some ([update], none) ∧
    (nextOf (step waiting)).map State.note = some [{ count := 12#32, hexErrs := 0#32 }] ∧
    nextOf (step unit) = some unit := by decide +kernel

/-- A table word placed where `step` fetches is the operation that runs: RDCOUNT, the byte `0x02`. -/
theorem test_fetch_word :
    (nextOf (step (unit.withFetchWord 0 0))).map State.result = some (.count 0#32) ∧
    (nextOf (step (unit.withFetchWord 16 0x02))).map (fun t => (t.pending, t.stim)) = some ([0x02#8], []) := by decide

/-! ### States and operands that meet the hypotheses of each statement -/

/-- For FeedLeavesBufferAtRest, SnapshotCopiesTheGrid and EventRowsAppendTheirEvent. -/
theorem witness_live : unit.live = true ∧ holding.live = true ∧ overflowed.live = true := by decide

theorem witness_ScriptOperationRuns :
    ((decode true [0x0B#8, 0x99#8]).toOption = some (.rdCount, [0x99#8]) ∧
      rxBlocked .rdCount { unit with stim := [0x0B#8, 0x99#8] } = false) ∧
    ([0xFF#8] ≠ [] ∧ decode unit.par.hexLowerOk [0xFF#8] = .error (.unknownFormat 0xFF#8)) :=
  ⟨by decide, by decide, rfl⟩

theorem witness_BlockedScriptWaitsForInternalAgents :
    let s := { overflowed with stim := [0x07#8, 0x03#8, 0x41#8] }
    s.live = true ∧ decode s.par.hexLowerOk s.stim = .ok (.rxByte 0x41#8, []) ∧ wireBytes (.rxByte 0x41#8) ≠ [] ∧
      rxReady s = false ∧ s.fault.rxOverflow = true ∧ s.handover = none ∧ s.queue = [] :=
  ⟨rfl, rfl, by decide, by decide, rfl, rfl, rfl⟩

theorem witness_EncodedOperationDecodes :
    (Instr.other 0x04#8).wellFormed false = true ∧ (Instr.hexLoF).wellFormed true = true ∧
    (Instr.frameHeader 0x03#8 0xFF#8 0xFFFF#16).wellFormed false = true := by decide

theorem witness_DecodedOperationIsWellFormed : decode false [0x02#8, 0x66#8] = .ok (.notHex 0x66#8, []) := rfl

theorem witness_SelectionVectorsSayEnabled :
    [update].length ≤ oneDeep.par.queueCap ∧ ({ oneDeep with queue := [update] } : State).queue = [update] := by decide

theorem witness_DigitClassesGiveTheirValues :
    matchesHexRow true 0x2F#8 = false ∧ matchesHexRow true 0x3A#8 = false ∧ matchesHexRow true 0x47#8 = false ∧
    matchesHexRow false 0x61#8 = false := by decide

theorem witness_HexpairHighDigitFirst :
    (hexval true 0x46#8 = some 15#4 ∧ hexval true 0x30#8 = some 0#4) ∧
    (hexval false 0x66#8 = none ∨ hexval false 0x30#8 = none) ∧ (hexval true 0x30#8 = none ∨ hexval true 0x47#8 = none) := by
  decide

theorem witness_ShortFrameIsTooShort :
    unit.live = true ∧ (List.replicate 8 0x02#8).length < 9 ∧ 9 ≤ (List.replicate 9 0x02#8).length := by decide

/-- Operands for both outcomes of each check. -/
theorem witness_WrongMarkerIsInvalidFraming :
    unit.live = true ∧ [0x46#8] ≠ ([] : List Byte) ∧ (0x01#8 ≠ 0x02#8 ∨ 0x03#8 ≠ 0x03#8) ∧
    (0x02#8 ≠ 0x02#8 ∨ 0x04#8 ≠ 0x03#8) := by decide

theorem witness_WrongTrailerIsChecksumMismatch :
    unit.live = true ∧ payload ≠ [] ∧
    hexpair unit.par.hexLowerOk 0x38#8 0x42#8 ≠ some (fieldChecksum 0x11#8 0x01#8 0x00#8 0x04#8 payload) ∧
    hexpair unit.par.hexLowerOk 0x47#8 0x35#8 ≠ some (fieldChecksum 0x11#8 0x01#8 0x00#8 0x04#8 payload) := by decide

theorem witness_ForeignAddressIsNotAddressedToUs :
    unit.live = true ∧ payload ≠ [] ∧
    hexpair unit.par.hexLowerOk 0x38#8 0x39#8 = some (fieldChecksum 0x11#8 0x02#8 0x00#8 0x04#8 payload) ∧
    0x02#8 ≠ unit.cfg.address := by decide

theorem witness_AcceptedFrameGivesItsUpdate :
    unit.live = true ∧ payload ≠ [] ∧
    hexpair unit.par.hexLowerOk 0x38#8 0x41#8 = some (fieldChecksum 0x11#8 0x01#8 0x00#8 0x04#8 payload) ∧
    0x01#8 = unit.cfg.address := by decide

theorem witness_OneByteChangedIsChecksumMismatch :
    ∃ t, exec (.decodeFn ([0x02#8] ++ [0x11#8, 0x01#8, 0x00#8] ++ [0x04#8] ++ payload ++ [0x03#8, 0x38#8, 0x41#8])) unit = .next t ∧
      t.result = .outcome (.ok update) ∧ 0x05#8 ≠ 0x04#8 := ⟨_, rfl, by decide, by decide⟩

theorem witness_DetectorOnTheFourShapes :
    unit.live = true ∧ ETX ∉ ([0x02#8] : List Byte) ∧ (withPending []).pending = [] ∧
    (withPending (STX :: [0x02#8])).pending = STX :: [0x02#8] ∧
    (withPending (STX :: ([0x02#8] ++ [ETX]))).pending = STX :: ([0x02#8] ++ [ETX]) ∧
    (withPending (STX :: ([0x02#8] ++ [ETX, ETX]))).pending = STX :: ([0x02#8] ++ [ETX, ETX]) := by decide

/-- For DetectorOnTheFourShapes, FeedIgnoresChunkBoundaries and DispatchIgnoresChunkBoundaries: buffers at rest. -/
theorem witness_atRest :
    (withPending [0x02#8, 0x11#8, 0x03#8, 0x03#8]).live = true ∧
    atRest (withPending [0x02#8, 0x11#8, 0x03#8, 0x03#8]).pending = true ∧ atRest unit.pending = true ∧
    atRest [0x02#8, 0x03#8, 0x30#8, 0x30#8] = false := by decide

theorem witness_EmittedFramesHaveTheirShape :
    ∃ t, exec (.feedFn [0x02#8, 0x03#8, 0x03#8, 0x02#8]) (withPending [0x03#8]) = .next t ∧
      t.result = .frames [[0x02#8, 0x03#8, 0x03#8, 0x02#8]] := ⟨_, rfl, by decide⟩

theorem witness_FeedCutsTheFirstFrame :
    unit.live = true ∧ STX ∉ ([0x03#8, 0x41#8] : List Byte) ∧ ETX ∉ ([] : List Byte) ∧
    unit.pending ++ [0x03#8, 0x41#8] = [0x03#8, 0x41#8] ∧
    unit.pending ++ [0x03#8, 0x41#8, 0x02#8] = [0x03#8, 0x41#8] ++ [STX] ++ [] ∧
    ([0x02#8] : List Byte).length < 2 ∧
    unit.pending ++ [0x03#8, 0x41#8, 0x02#8, 0x03#8, 0x02#8] = [0x03#8, 0x41#8] ++ [STX] ++ [] ++ [ETX] ++ [0x02#8] ∧
    (withPending [0x02#8, 0x03#8]).pending ++ [0x02#8, 0x03#8, 0x02#8] =
      [] ++ [STX] ++ [] ++ [ETX, 0x02#8, 0x03#8] ++ [0x02#8] := by decide

/-- Taken bytes: one that stays, one that overflows, one that completes a frame. -/
theorem witness_TakenByteFollowsDetectorAndDecoder :
    unit.live = true ∧ unit.handover = none ∧ unit.fault.rxOverflow = false ∧
    wireBytes .stx = [0x02#8] ∧ wireBytes .etx = [0x03#8] ∧ wireBytes (.other 0x41#8) = [0x41#8] ∧
    wireBytes (.rxByte 0x30#8) = [0x30#8] ∧
    stepByte unit.pending 0x02#8 = ([0x02#8], none) ∧ exceedsCap unit.par.pendingCap 1 = false ∧
    stepByte (capped 0 []).pending 0x02#8 = ([0x02#8], none) ∧ exceedsCap (capped 0 []).par.pendingCap 1 = true ∧
    stepByte [0x02#8, 0x11#8, 0x03#8, 0x37#8] 0x30#8 = ([], some [0x02#8, 0x11#8, 0x03#8, 0x37#8, 0x30#8]) := by decide

theorem witness_GarbageByteChangesNothing :
    unit.live = true ∧ unit.handover = none ∧ unit.fault.rxOverflow = false ∧ wireBytes .etx = [0x03#8] ∧
    unit.pending = [] ∧ 0x03#8 ≠ 0x02#8 := by decide

theorem witness_DropAppendsOneEventOnly :
    let s := withPending (STX :: ([0x11#8] ++ [ETX, 0x37#8]))
    (s.live = true ∧ s.handover = none ∧ s.fault.rxOverflow = false ∧ wireBytes (.rxByte 0x30#8) = [0x30#8] ∧
      ETX ∉ ([0x11#8] : List Byte) ∧ s.pending = STX :: ([0x11#8] ++ [ETX, 0x37#8]) ∧
      decodeFrame s.par.hexLowerOk s.cfg (STX :: ([0x11#8] ++ [ETX, 0x37#8, 0x30#8])) = .tooShort) ∧
    ∀ u, DecodeOutcome.tooShort ≠ .ok u := ⟨by decide, nofun⟩

theorem witness_OverflowIsStickyAndStopsRx :
    (let s := capped 2 [0x02#8, 0x11#8];
      s.live = true ∧ s.handover = none ∧ s.fault.rxOverflow = false ∧ wireBytes .stx = [0x02#8] ∧
      s.par.pendingCap = some 2 ∧ stepByte s.pending 0x02#8 = ([0x02#8, 0x11#8, 0x02#8], none) ∧
      2 < ([0x02#8, 0x11#8, 0x02#8] : List Byte).length) ∧
    (∃ t, exec .stx overflowed = .next t) ∧ isInit .stx = false ∧ overflowed.fault.rxOverflow = true ∧
    (∃ t, exec .stx unit = .next t) ∧ unit.par.pendingCap = none ∧
    (∃ t, exec (.init 1#32 1#32 0xFF#8) overflowed = .next t) ∧ isInit (.init 1#32 1#32 0xFF#8) = true :=
  ⟨by decide, ⟨_, rfl⟩, by decide, by decide, ⟨_, rfl⟩, rfl, ⟨_, rfl⟩, by decide⟩

theorem witness_RefusedBytesStayOnOffer :
    holding.live = true ∧ wireBytes (.framePayloadPair 0x46#8 0x46#8) ≠ [] ∧
    (holding.handover ≠ none ∨ holding.fault.rxOverflow = true) ∧
    (overflowed.handover ≠ none ∨ overflowed.fault.rxOverflow = true) := by decide

/-- A receiver that takes the whole field, and one that overflows inside it (`test_field_cut_by_overflow`). -/
theorem witness_FieldBytesArriveInOrder :
    unit.live = true ∧ wireBytes (.frameTrailer 0x38#8 0x41#8) = [0x03#8, 0x38#8, 0x41#8] ∧
    (capped 2 []).live = true ∧ wireBytes (.frameHeader 0x11#8 0x01#8 4#16) ≠ [] ∧
    execAll [.rxByte 0x02#8, .rxByte 0x11#8, .rxByte 0x01#8] (capped 2 []) = .next overflowed :=
  ⟨rfl, rfl, rfl, by decide, rfl⟩

theorem witness_HeaderIsBuffered :
    (capped 5 []).live = true ∧ (capped 5 []).handover = none ∧ (capped 5 []).fault.rxOverflow = false ∧
    (capped 5 []).pending = [] ∧ 0x02#8 ≠ 0x03#8 ∧ 0x04#8 ≠ 0x03#8 ∧
    exceedsCap (capped 5 []).par.pendingCap 5 = false ∧ exceedsCap (capped 4 []).par.pendingCap 5 = true := by decide

theorem witness_EtxInHeaderCutsTheFrame :
    unit.live = true ∧ unit.handover = none ∧ unit.fault.rxOverflow = false ∧ unit.pending = [] ∧
    exceedsCap unit.par.pendingCap 5 = false ∧ (0x03#8 = 0x03#8 ∨ 0x11#8 ≠ 0x03#8 ∧ 0x03#8 = 0x03#8) ∧
    (0x02#16).toNat % 256 = 0x02 := by decide

theorem witness_PairIsBuffered :
    let s := capped 4 (STX :: [0x11#8])
    s.live = true ∧ s.handover = none ∧ s.fault.rxOverflow = false ∧ s.pending = STX :: [0x11#8] ∧
    ETX ∉ ([0x11#8] : List Byte) ∧ exceedsCap s.par.pendingCap ([0x11#8].length + 3) = false := by decide

theorem witness_TrailerCompletesTheFrame :
    let s := withPending (STX :: body)
    s.live = true ∧ s.handover = none ∧ s.fault.rxOverflow = false ∧ s.pending = STX :: body ∧ ETX ∉ body ∧
    exceedsCap s.par.pendingCap (body.length + 3) = false ∧
    decodeFrame s.par.hexLowerOk s.cfg (STX :: (body ++ [ETX, 0x38#8, 0x41#8])) = .ok update := by decide

theorem witness_WholeFrameIsTakenByteByByte :
    let s := capped 13 []
    s.live = true ∧ s.handover = none ∧ s.fault.rxOverflow = false ∧ s.pending = [] ∧ ETX ∉ body ∧
    exceedsCap s.par.pendingCap (body.length + 3) = false ∧
    decodeFrame s.par.hexLowerOk s.cfg (STX :: (body ++ [ETX, 0x38#8, 0x41#8])) = .ok update := by decide

theorem witness_InitResetsEverything :
    (1#32).toNat > 0 ∧ (0xFFFFFFFF#32).toNat > 0 ∧ ((0#32).toNat = 0 ∨ (4#32).toNat = 0) ∧
    ((8#32).toNat = 0 ∨ (0#32).toNat = 0) := by decide

theorem witness_NothingHasAMeaningBeforeInit :
    dead.live = false ∧ isInit .rdCount = false ∧ readsNoState .rdCount = false ∧ dead.stim = [] := by decide

theorem witness_EnqMovesTheHeldUpdate :
    let s := { oneDeep with handover := some update }
    s.live = true ∧ s.handover = some update ∧ s.queue.length < s.par.queueCap := by decide

theorem witness_DisabledStepsWait :
    unit.live = true ∧ unit.handover = none ∧ unit.queue = [] ∧
    ({ oneDeep with queue := [update], handover := some update } : State).par.queueCap ≤ [update].length := by decide

theorem witness_ApplyqAppliesTheHead :
    waiting.live = true ∧ waiting.queue = update :: [] ∧
    (applyPayload waiting.par.hexLowerOk waiting.cfg waiting.grid update.bits).hexErrs < 2 ^ 32 := by decide +kernel

theorem witness_SnaprdReadsTheShadow :
    let s := { unit with snap := some gridG1 }
    s.live = true ∧ s.snap = some gridG1 ∧ (7#32).toNat < s.cfg.rows.toNat ∧ (3#32).toNat < s.cfg.columns.toNat ∧
    (s.cfg.rows.toNat ≤ (8#32).toNat ∨ s.cfg.columns.toNat ≤ (0#32).toNat) ∧
    (s.cfg.rows.toNat ≤ (7#32).toNat ∨ s.cfg.columns.toNat ≤ (4#32).toNat) ∧ unit.snap = none := by decide

theorem witness_RdcountReturnsTheLastCount :
    (unit.live = true ∧ CountPublished unit ∧ unit.note = []) ∧
    (CountPublished { waiting with updatedCount := 3#32, note := [⟨5#32, 0#32⟩, ⟨3#32, 1#32⟩] }) ∧
    (waiting.queue = update :: [] ∧ CountPublished waiting ∧ ∃ t, exec .applyQ waiting = .next t) ∧
    (∃ t, step waiting = .next t) ∧
    (isInit (.init 1#32 1#32 0#8) = true ∧ ∃ t, exec (.init 1#32 1#32 0#8) { unit with updatedCount := 3#32 } = .next t) :=
  ⟨⟨rfl, rfl, rfl⟩, rfl, ⟨rfl, rfl, _, rfl⟩, ⟨_, rfl⟩, by decide, _, rfl⟩

theorem witness_ReadsHaveNoSideEffects :
    (∃ t, exec .snapshot waiting = .next t) ∧ (∃ t, exec .rdCount waiting = .next t) ∧
    (∃ t, exec (.snapRd 7#32 2#32) { unit with snap := some gridG1 } = .next t) ∧
    (∃ t, exec (.decodeFn frame) unit = .next t) ∧ (∃ t, exec (.decodeFn frame) waiting = .next t) ∧
    unit.cfg = waiting.cfg ∧ unit.par = waiting.par := ⟨⟨_, rfl⟩, ⟨_, rfl⟩, ⟨_, rfl⟩, ⟨_, rfl⟩, ⟨_, rfl⟩, rfl, rfl⟩

/-- For ApplyWritesExactlyItsCells, ApplyCountsChangedCells and ApplyIsIdempotent. -/
theorem witness_ApplyCalls :
    unit.live = true ∧ ∃ t, exec (.applyFn payload) unit = .next t := ⟨rfl, _, rfl⟩

theorem witness_RowsFromEightNeverChange :
    (∃ t, exec .applyQ { State.reset with queue := [update] } = .next t) ∧ isInit .applyQ = false ∧ 8 ≤ 8 ∧
    (∃ t, exec (.init 16#32 1#32 0#8) unit = .next t) ∧ isInit (.init 16#32 1#32 0#8) = true :=
  ⟨⟨_, rfl⟩, by decide, by decide, ⟨_, rfl⟩, by decide⟩

theorem witness_DispatchRunsItsFramesInOrder :
    unit.live = true ∧ feed unit.pending (frame ++ frame ++ [0x02#8]) = ([0x02#8], [frame, frame]) ∧
    applyAll unit.par.hexLowerOk unit.cfg unit.grid (acceptedUpdates unit.par.hexLowerOk unit.cfg [frame, frame]) =
      [⟨gridG1, 12#32, 0⟩, ⟨gridG1, 0#32, 0⟩] := by decide +kernel

/-- A schedule that takes a byte, waits, hands over and applies. -/
theorem witness_PipelineAgreesWithDispatch :
    let s := withPending ([0x02#8] ++ body ++ [0x03#8, 0x38#8])
    s.live = true ∧ atRest s.pending = true ∧ (s.handover = none ∧ s.queue = []) ∧
    (∀ i ∈ [Instr.rxByte 0x41#8, .snapshot, .enq, .applyQ], isPipelineStep i = true) ∧
    ∃ t, execAll [.rxByte 0x41#8, .snapshot, .enq, .applyQ] s = .next t ∧
      (t.stim = s.stim ∧ t.fault.rxOverflow = false ∧ t.handover = none ∧ t.queue = []) :=
  ⟨by decide, by decide, by decide, by decide, _, rfl, by decide⟩

theorem witness_ResetIsInitAndMeetsInvariants :
    ({ holding with draws := 0 } : State).par = Config.reference ∧ holding.stim = [] ∧ holding.draws = 0 := by decide

/-- The invariants hold of a unit in the middle of a frame with an update waiting, and `step` moves it. -/
theorem witness_StepKeepsInvariant :
    let s := { waiting with pending := [0x02#8, 0x11#8], grid := gridG1, snap := some gridG1 }
    Inv s ∧ ∃ t, step s = .next t :=
  ⟨fun _ => ⟨by decide, by decide, by decide, by decide, by decide, by rintro g ⟨⟩; decide⟩, _, rfl⟩

/-- Both invariants hold of an overflowed unit. -/
theorem witness_OperationsKeepPipelineInvariant :
    Inv overflowed ∧ PipeInv overflowed ∧ isReferenceCall .etx = false ∧ ∃ t, exec .etx overflowed = .next t :=
  ⟨fun _ => ⟨by decide, by decide, by decide, by decide, by decide, by rintro g ⟨⟩⟩,
    fun _ => ⟨by decide, by decide, by decide⟩, by decide, _, rfl⟩

theorem witness_OnlyOwnersWrite :
    (∃ t, exec (.dispatchFn frame) unit = .next t) ∧ isInit (.dispatchFn frame) = false ∧
    (∃ t, exec .enq holding = .next t) ∧ wireBytes .enq = [] ∧ isReferenceCall .enq = false ∧ opKind .enq ≠ .event ∧
    writesGrid .enq = false := ⟨⟨_, rfl⟩, by decide, ⟨_, rfl⟩, by decide, by decide, by decide, by decide⟩

theorem witness_InternalAgentsDrainTheQueue :
    let s := { oneDeep with queue := [update], handover := some update }
    s.live = true ∧ s.stim = [] ∧ 1 ≤ s.par.queueCap := by decide

theorem witness_PhasesOfOneByte :
    unit.handover = none ∧ atRest (withPending [0x02#8, 0x03#8, 0x30#8]).pending = true := by decide

/-- Both clauses; at rest the 7-byte frame takes 6 bytes of `P`, the most that `PENDING_CAP` = 6 holds. -/
theorem witness_EtxInResolutionCutsTheFrame :
    (capped 6 []).live = true ∧ (capped 6 []).handover = none ∧ (capped 6 []).fault.rxOverflow = false ∧
    (capped 6 []).pending = [] ∧ 0x02#8 ≠ 0x03#8 ∧ 0x01#8 ≠ 0x03#8 ∧ exceedsCap (capped 6 []).par.pendingCap 6 = false ∧
    (0x0303#16).toNat / 256 = 0x03 ∧ (0xFF03#16).toNat / 256 ≠ 0x03 ∧ (0xFF03#16).toNat % 256 = 0x03 := by decide

/-- A run that ends before what it accepted is applied. -/
theorem witness_SnapshotInARunIsAPrefixOfApplies :
    let s := withPending ([0x02#8] ++ body ++ [0x03#8, 0x38#8])
    s.live = true ∧ atRest s.pending = true ∧ (s.handover = none ∧ s.queue = []) ∧
    (∀ i ∈ [Instr.rxByte 0x41#8, .rdCount, .enq], isPipelineStep i = true) ∧
    ∃ t, execAll [.rxByte 0x41#8, .rdCount, .enq] s = .next t ∧
      (t.stim = s.stim ∧ t.fault.rxOverflow = false ∧ t.queue = [update]) :=
  ⟨by decide, by decide, by decide, by decide, _, rfl, by decide⟩

end Sys2Proof.Tests
end

section
/-! Proofs about the state (10_state.md): what an operation with a next state does, once for all operations, and from that the
invariants, the owners of each item of state, the overflow bit and `PHASE`. -/

namespace Sys2Proof.Machine

/-! ### What an operation with a next state does -/

/-- `Effect s i t`: `t` is what `i` makes of `s` where it has a meaning; `bytes` is every reception, `value` every operation
that only returns a value. -/
inductive Effect (s : State) : Instr → State → Prop where
  | bytes {i : Instr} (hw : wireBytes i ≠ []) (hl : s.live = true) : Effect s i (rxBytes (wireBytes i) s)
  | value {i : Instr} (r : Result)
      (hk : opKind i = .pure ∨ opKind i = .read ∨ opKind i = .decodeCall ∨ opKind i = .snapshotCall) :
      Effect s i (returns r s)
  | event {i : Instr} (e : Event) (hk : opKind i = .event) : Effect s i (emitEvent e s)
  | init {rows columns : Word32} (address : Byte) (hr : rows ≠ 0#32) (hc : columns ≠ 0#32) :
      Effect s (.init rows columns address) (initialise rows columns address s)
  | snapshot : Effect s .snapshot (returns (.grid s.grid) { s with snap := some s.grid })
  | enq : Effect s .enq (enqueue s)
  | applyQ : Effect s .applyQ (applyHead s)
  | feed (chunk : List Byte) : Effect s (.feedFn chunk)
      (returns (.frames (feed s.pending chunk).2) { s with pending := (feed s.pending chunk).1 })
  | step (b : Byte) : Effect s (.stepFn b)
      (returns (.frame (stepByte s.pending b).2) { s with pending := (stepByte s.pending b).1 })
  | apply (payload : List Byte) : Effect s (.applyFn payload)
      (returns (.applied (applyPayload s.par.hexLowerOk s.cfg s.grid payload).count
          (applyPayload s.par.hexLowerOk s.cfg s.grid payload).hexErrs)
        { s with grid := (applyPayload s.par.hexLowerOk s.cfg s.grid payload).grid })
  | dispatch (chunk : List Byte) : Effect s (.dispatchFn chunk) (dispatch chunk s)

/-- An operation has a next state only by its effect: the one case split over the rows of the table. -/
theorem effect_of_exec {i : Instr} {s t : State} (h : exec i s = .next t) : Effect s i t := by
  cases i with
  | stx | etx | other _ | rxByte _ | frameHeader _ _ _ | framePayloadPair _ _ | frameTrailer _ _ =>
    obtain ⟨hl, rfl⟩ := whenLive_eq_next.1 h
    exact .bytes (List.cons_ne_nil _ _) hl
  | hex07 _ | hex89 _ | hexUpA | hexUpBC _ | hexUpDE _ | hexUpF | hexLoA | hexLoBC _ | hexLoDE _ | hexLoF | notHex _
  | hexvalFn _ | hexpairFn _ _ | cksumFn _ =>
    cases h
    exact .value _ (by simp [opKind])
  | rdCount | decodeFn _ | snapshotFn =>
    obtain ⟨-, rfl⟩ := whenLive_eq_next.1 h
    exact .value _ (by simp [opKind])
  | snapRd _ _ =>
    obtain ⟨-, g, -, -, rfl⟩ := execSnapRd_eq_next.1 h
    exact .value _ (by simp [opKind])
  | evtOk _ | evtTooShort | evtInvalidFraming | evtChecksumMismatch | evtNotAddressedToUs =>
    obtain ⟨-, rfl⟩ := whenLive_eq_next.1 h
    exact .event _ rfl
  | init rows columns address =>
    obtain ⟨⟨hr, hc⟩, rfl⟩ := execInit_eq_next.1 h
    exact .init address hr hc
  | snapshot => obtain ⟨-, rfl⟩ := whenLive_eq_next.1 h; exact .snapshot
  | enq => obtain ⟨-, rfl⟩ := whenLive_eq_next.1 h; exact .enq
  | applyQ => obtain ⟨-, rfl⟩ := whenLive_eq_next.1 h; exact .applyQ
  | feedFn chunk => obtain ⟨-, rfl⟩ := whenLive_eq_next.1 h; exact .feed chunk
  | stepFn b => obtain ⟨-, rfl⟩ := whenLive_eq_next.1 h; exact .step b
  | applyFn payload => obtain ⟨-, rfl⟩ := whenLive_eq_next.1 h; exact .apply payload
  | dispatchFn chunk => obtain ⟨-, rfl⟩ := whenLive_eq_next.1 h; exact .dispatch chunk

/-! ### Buffers at rest -/

theorem atRest_feed_of_atRest (chunk : List Byte) {p : List Byte} (hp : atRest p = true) :
    atRest (feed p chunk).1 = true := by
  induction chunk generalizing p with
  | nil => rwa [feed_nil_of_atRest hp]
  | cons b rest ih =>
    rw [feed_cons b rest hp]
    exact ih (atRest_stepByte b hp)

/-- `feed` leaves a buffer at rest, whatever buffer it starts from (10_state.md R13). -/
theorem atRest_feed (p chunk : List Byte) : atRest (feed p chunk).1 = true := by
  rw [feed_eq_feed_nil]
  exact atRest_feed_of_atRest _ rfl

theorem atRest_rxTake {s : State} (b : Byte) (hp : atRest s.pending = true) : atRest (rxTake b s).pending = true := by
  rcases rxTake_cases b hp with ⟨p, -, hr, ⟨-, h⟩ | ⟨-, h⟩⟩ | ⟨-, -, h⟩
  · simpa [h] using hp
  · simpa [h] using hr
  · simp [h, atRest]

/-! ### Cases of ENQ and of a taken frame -/

theorem enqueue_cases (s : State) :
    enqueue s = s ∨ ∃ u, s.handover = some u ∧ s.queue.length < s.par.queueCap ∧
      enqueue s = { s with queue := s.queue ++ [u], handover := none } := by
  cases hu : s.handover with
  | none => exact .inl (by simp [enqueue, hu])
  | some u =>
    by_cases hlt : s.queue.length < s.par.queueCap
    · exact .inr ⟨u, rfl, hlt, enqueue_some hu hlt⟩
    · exact .inl (by simp [enqueue, hu, hlt])

theorem takeFrame_of_ok {s : State} {fr : List Byte} {u : PixelUpdate}
    (h : decodeFrame s.par.hexLowerOk s.cfg fr = .ok u) :
    takeFrame fr s = emitEvent (eventOf (.ok u)) { s with pending := [], handover := some u } := by
  simp [takeFrame, settleOutcome, h]

theorem takeFrame_of_not_ok {s : State} {fr : List Byte} (h : ∀ u, decodeFrame s.par.hexLowerOk s.cfg fr ≠ .ok u) :
    takeFrame fr s = emitEvent (eventOf (decodeFrame s.par.hexLowerOk s.cfg fr)) { s with pending := [] } := by
  unfold takeFrame settleOutcome
  split
  · next u hu => exact absurd hu (h u)
  · rfl

/-! ### The invariant of the whole machine -/

theorem Inv.setPending {s : State} {p : List Byte} (h : Inv s) (hp : atRest s.pending = true → atRest p = true) :
    Inv { s with pending := p } := by
  intro hl
  obtain ⟨hr, hc, hrest, hothers⟩ := h hl
  exact ⟨hr, hc, hp hrest, hothers⟩

theorem Inv.setGrid {s : State} {g : Grid} (h : Inv s) (hg : gridOk s.cfg s.grid = true → gridOk s.cfg g = true) :
    Inv { s with grid := g } := by
  intro hl
  obtain ⟨hr, hc, hp, hq, hok, hs⟩ := h hl
  exact ⟨hr, hc, hp, hq, hg hok, hs⟩

theorem Inv.rxTake {s : State} (h : Inv s) (b : Byte) : Inv (rxTake b s) := by
  intro hl
  obtain ⟨hr, hc, hp, hq, hg, hs⟩ := h (by simpa using hl)
  simpa [hr, hc, hq, hg, atRest_rxTake b hp] using hs

theorem Inv.rxBytes {s : State} (h : Inv s) (bs : List Byte) : Inv (rxBytes bs s) :=
  rxBytes_keeps (fun b _ h _ => h.rxTake b) (fun _ _ h => h) bs s h

theorem Inv.enqueue {s : State} (h : Inv s) : Inv (enqueue s) := by
  rcases enqueue_cases s with he | ⟨u, -, hlt, he⟩ <;> rw [he]
  · exact h
  · intro hl
    obtain ⟨hr, hc, hp, -, hgrids⟩ := h hl
    exact ⟨hr, hc, hp, by simpa using hlt, hgrids⟩

theorem Inv.applyUpdate {s : State} (h : Inv s) (u : PixelUpdate) : Inv (applyUpdate u s) :=
  h.setGrid (applyPayload_gridOk u.bits)

theorem Inv.dequeue {s : State} {u : PixelUpdate} {us : List PixelUpdate} (h : Inv s) (hq : s.queue = u :: us) :
    Inv { s with queue := us } := by
  intro hl
  obtain ⟨hr, hc, hp, hcap, hrest⟩ := h hl
  refine ⟨hr, hc, hp, ?_, hrest⟩
  rw [hq, List.length_cons] at hcap
  exact Nat.le_of_succ_le hcap

theorem Inv.applyHead {s : State} (h : Inv s) : Inv (applyHead s) := by
  cases hq : s.queue with
  | nil => rwa [applyHead_nil hq]
  | cons u us => rw [applyHead_cons hq]; exact (h.dequeue hq).applyUpdate u

theorem Inv.internalStep {s : State} (h : Inv s) : Inv (internalStep s) := by
  unfold Machine.internalStep
  split
  · exact h.enqueue
  · split
    · exact h.applyHead
    · exact h

theorem Inv.dispatchFrame {s : State} (h : Inv s) (f : List Byte) : Inv (dispatchFrame s f) := by
  unfold Machine.dispatchFrame dispatchOutcome
  split
  · exact Inv.applyUpdate (s := emitEvent _ s) h _
  · exact h

theorem Inv.dispatch {s : State} (h : Inv s) (chunk : List Byte) : Inv (dispatch chunk s) :=
  dispatchFrames_keep (fun _ f h => h.dispatchFrame f) _ _ (h.setPending fun _ => atRest_feed _ _)

theorem inv_initialise {rows columns : Word32} (address : Byte) (s : State) (hr : rows ≠ 0#32) (hc : columns ≠ 0#32) :
    Inv (initialise rows columns address s) := fun _ =>
  ⟨hr, hc, rfl, Nat.zero_le _, gridOk_fresh _, fun _ hg => by cases hg⟩

/-- Every operation of the table keeps the invariant. -/
theorem Inv.exec {i : Instr} {s t : State} (h : Inv s) (he : exec i s = .next t) : Inv t := by
  cases effect_of_exec he with
  | bytes => exact h.rxBytes _
  | value => exact h
  | event => exact h
  | init address hr hc => exact inv_initialise address s hr hc
  | snapshot =>
    intro hl
    obtain ⟨hr, hc, hp, hq, hg, -⟩ := h hl
    exact ⟨hr, hc, hp, hq, hg, fun g hs => by cases hs; exact hg⟩
  | enq => exact h.enqueue
  | applyQ => exact h.applyHead
  | feed chunk => exact h.setPending fun _ => atRest_feed _ _
  | step b => exact h.setPending (atRest_stepByte b)
  | apply payload => exact h.setGrid (applyPayload_gridOk payload)
  | dispatch chunk => exact h.dispatch chunk

/-- Settles O52: HFR's own step keeps the invariant, and so does every operation of the script. -/
theorem stepKeepsInvariant : Obligations.StepKeepsInvariant := by
  intro s t h hstep
  rcases step_cases hstep with rfl | ⟨i, rest, -, he⟩
  · exact h.internalStep
  · exact Inv.exec (s := { s with stim := rest }) h he

/-! ### The invariant of the pipeline -/

theorem exceedsCap_zero (cap : Option Nat) : exceedsCap cap 0 = false := by
  cases cap <;> simp [exceedsCap]

/-- A buffer within `PENDING_CAP` that one byte more would push over it is full. -/
theorem cap_eq_of_exceeds {cap : Option Nat} {n m : Nat} (hn : exceedsCap cap n = false) (hm : exceedsCap cap m = true)
    (hle : m ≤ n + 1) : cap = some n := by
  cases cap with
  | none => cases hm
  | some c =>
    simp only [exceedsCap, decide_eq_false_iff_not, decide_eq_true_eq] at hn hm
    exact congrArg some (by omega)

theorem stepByte_length_le {p p' : List Byte} {b : Byte} (hp : atRest p = true) (h : stepByte p b = (p', none)) :
    p'.length ≤ p.length + 1 := by
  rcases stepByte_cases b hp with ⟨q, hq, -, ⟨rfl, -⟩ | rfl⟩ | ⟨hq, -⟩ <;> rw [hq] at h <;> cases h
  · exact Nat.zero_le _
  · simp

theorem PipeInv.rxTake {s : State} (h : PipeInv s) (hi : Inv s) (hready : rxReady s = true) (b : Byte) :
    PipeInv (rxTake b s) := by
  intro hl
  rw [rxTake_live] at hl
  obtain ⟨-, hcap, -⟩ := h hl
  obtain ⟨-, -, hp, -⟩ := hi hl
  obtain ⟨hnone, hfault⟩ := (rxReady_iff s).1 hready
  rcases rxTake_cases b hp with ⟨p, hstep, -, ⟨hx, ht⟩ | ⟨hx, ht⟩⟩ | ⟨-, -, ht⟩ <;> rw [ht]
  · exact ⟨fun hheld => absurd hnone hheld, hcap, fun _ => ⟨hnone, cap_eq_of_exceeds hcap hx (stepByte_length_le hp hstep)⟩⟩
  · exact ⟨fun hheld => absurd hnone hheld, hx, by simp [hfault]⟩
  · simp [exceedsCap_zero, hfault]

theorem PipeInv.rxBytes {s : State} (h : PipeInv s) (hi : Inv s) (bs : List Byte) : PipeInv (rxBytes bs s) :=
  (rxBytes_keeps (R := fun t => Inv t ∧ PipeInv t) (fun b _ h hr => ⟨h.1.rxTake b, h.2.rxTake h.1 hr b⟩)
    (fun _ _ h => h) bs s ⟨hi, h⟩).2

theorem PipeInv.enqueue {s : State} (h : PipeInv s) : PipeInv (enqueue s) := by
  rcases enqueue_cases s with he | ⟨u, -, -, he⟩ <;> rw [he]
  · exact h
  · intro hl
    obtain ⟨-, hcap, hfull⟩ := h hl
    exact ⟨fun hn => absurd rfl hn, hcap, fun hf => ⟨rfl, (hfull hf).2⟩⟩

theorem PipeInv.applyHead {s : State} (h : PipeInv s) : PipeInv (applyHead s) := by
  simpa [PipeInv] using h

theorem pipeInv_initialise (rows columns : Word32) (address : Byte) (s : State) :
    PipeInv (initialise rows columns address s) := by
  simp [PipeInv, exceedsCap_zero]

/-- Settles O53, by the update of each operation. -/
theorem operationsKeepPipelineInvariant : Obligations.OperationsKeepPipelineInvariant := by
  intro s t i hi h href he
  cases effect_of_exec he with
  | bytes => exact h.rxBytes hi _
  | value | event | snapshot | apply => exact h
  | init address => exact pipeInv_initialise _ _ address s
  | enq => exact h.enqueue
  | applyQ => exact h.applyHead
  | feed | step | dispatch => cases href

/-- Settles O51: the reset state is an INIT's, so it meets what every INIT establishes. -/
theorem resetIsInitAndMeetsInvariants : Obligations.ResetIsInitAndMeetsInvariants := by
  have hreset (s : State) (hpar : s.par = Config.reference) (hstim : s.stim = []) (hdraws : s.draws = 0) :
      initialise 16#32 96#32 0x01#8 s = State.reset := by
    simp [initialise, State.reset, Grid.fresh, hpar, hstim, hdraws]
  refine ⟨fun s hpar hstim hdraws => ?_, ?_, ?_, rfl⟩
  · exact execInit_eq_next.2 ⟨by decide, hreset s hpar hstim hdraws⟩
  · rw [← hreset State.reset rfl rfl rfl]
    exact inv_initialise _ _ (by decide) (by decide)
  · rw [← hreset State.reset rfl rfl rfl]
    exact pipeInv_initialise _ _ _ _

/-- Settles O21: `feed` writes its buffer, which is at rest. -/
theorem feedLeavesBufferAtRest : Obligations.FeedLeavesBufferAtRest := fun s chunk hl =>
  ⟨(feed s.pending chunk).1, (feed s.pending chunk).2, whenLive_of_live _ hl, atRest_feed _ _⟩

/-! ### The owners of each item of state -/

theorem rxTake_evt_prefix (b : Byte) (s : State) : s.evt <+: (rxTake b s).evt := by
  unfold rxTake
  split
  · split
    · exact List.prefix_rfl
    · exact List.prefix_rfl
  · rw [takeFrame_evt]; exact List.prefix_append _ _

theorem rxBytes_evt_prefix (bs : List Byte) (s : State) : s.evt <+: (rxBytes bs s).evt :=
  rxBytes_keeps (R := fun t => s.evt <+: t.evt) (fun b t h _ => h.trans (rxTake_evt_prefix b t)) (fun _ _ h => h) bs s
    List.prefix_rfl

theorem applyHead_note_prefix (s : State) : s.note <+: (applyHead s).note := by
  unfold applyHead
  split
  · exact List.prefix_rfl
  · exact List.prefix_append _ _

theorem dispatchFrame_prefix (s : State) (f : List Byte) :
    s.evt <+: (dispatchFrame s f).evt ∧ s.note <+: (dispatchFrame s f).note := by
  unfold dispatchFrame dispatchOutcome
  split <;> simp

theorem dispatch_prefix (chunk : List Byte) (s : State) :
    s.evt <+: (dispatch chunk s).evt ∧ s.note <+: (dispatch chunk s).note :=
  dispatchFrames_keep (R := fun t => s.evt <+: t.evt ∧ s.note <+: t.note)
    (fun t f h => ⟨h.1.trans (dispatchFrame_prefix t f).1, h.2.trans (dispatchFrame_prefix t f).2⟩) _ _
    ⟨List.prefix_rfl, List.prefix_rfl⟩

/-- `EVT` and `NOTE` only grow, but for INIT. -/
theorem exec_evt_note_prefix {i : Instr} {s t : State} (h : exec i s = .next t) (hi : isInit i = false) :
    s.evt <+: t.evt ∧ s.note <+: t.note := by
  cases effect_of_exec h with
  | bytes => exact ⟨rxBytes_evt_prefix _ _, by simp⟩
  | event => exact ⟨List.prefix_append _ _, List.prefix_rfl⟩
  | init => cases hi
  | applyQ => exact ⟨by simp, applyHead_note_prefix s⟩
  | dispatch chunk => exact dispatch_prefix chunk s
  | value | snapshot | enq | feed | step | apply => simp

theorem exec_par {i : Instr} {s t : State} (h : exec i s = .next t) : t.par = s.par := by
  cases effect_of_exec h <;> simp

/-- Settles O54, by the update of each operation. -/
theorem onlyOwnersWrite : Obligations.OnlyOwnersWrite := by
  intro s t i h
  refine ⟨exec_par h, fun hi => ?_⟩
  have hgrow : ∃ es ns, t.evt = s.evt ++ es ∧ t.note = s.note ++ ns := by
    obtain ⟨⟨es, hes⟩, ns, hns⟩ := exec_evt_note_prefix h hi
    exact ⟨es, ns, hes.symm, hns.symm⟩
  cases effect_of_exec h with
  | bytes hw => simpa [hw] using hgrow
  | event e hk => simp [hk]
  | init => cases hi
  | applyQ => simpa [writesGrid, opKind] using hgrow
  | dispatch => simpa [isReferenceCall, writesGrid, opKind] using hgrow
  | feed | step => simp [isReferenceCall, opKind]
  | apply => simp [writesGrid, opKind]
  | value | snapshot | enq => simp

/-! ### The overflow bit (10_state.md R21) -/

theorem rxBytes_of_not_ready {bs : List Byte} {s : State} (hw : bs ≠ []) (h : rxReady s = false) :
    rxBytes bs s = offerAgain bs s := by
  obtain ⟨b, bs, rfl⟩ := List.exists_cons_of_ne_nil hw
  exact rxBytes_cons_blocked b bs h

theorem rxTake_of_exceeds {s : State} {b : Byte} {p : List Byte} (h : stepByte s.pending b = (p, none))
    (hx : exceedsCap s.par.pendingCap p.length = true) : rxTake b s = raiseOverflow s := by
  simp [rxTake, h, hx]

theorem exceedsCap_some {cap n : Nat} : exceedsCap (some cap) n = true ↔ cap < n := by simp [exceedsCap]

/-- With `PENDING_CAP = INF` no byte touches the fault register. -/
theorem rxTake_fault_of_inf {s : State} (b : Byte) (h : s.par.pendingCap = none) : (rxTake b s).fault = s.fault := by
  unfold rxTake
  split
  · simp [exceedsCap, h]
  · simp

theorem rxBytes_fault_of_inf {s : State} (bs : List Byte) (h : s.par.pendingCap = none) :
    (rxBytes bs s).fault = s.fault :=
  (rxBytes_keeps (R := fun t => t.par.pendingCap = none ∧ t.fault = s.fault)
    (fun b t ht _ => ⟨by simpa using ht.1, (rxTake_fault_of_inf b ht.1).trans ht.2⟩) (fun _ _ ht => ht) bs s ⟨h, rfl⟩).2

theorem wireBytes_of_event {i : Instr} (h : opKind i = .event) : wireBytes i = [] := by
  cases i <;> cases h <;> rfl

theorem isInit_iff (i : Instr) : isInit i = true ↔ ∃ rows columns address, i = .init rows columns address := by
  cases i <;> simp [isInit, opKind]

/-- Settles O26: the byte that exceeds the cap, then each effect in the fault state, after INIT and with `INF`. -/
theorem overflowIsStickyAndStopsRx : Obligations.OverflowIsStickyAndStopsRx := by
  refine ⟨fun s i b p cap hl hnone hfault hw hcap hstep hlt => ?_, fun s t i h hi hover => ?_, fun s t i h hi => ?_,
    fun s t i h hi hinf => ?_⟩
  · rw [exec_of_wireBytes hl (by simp [hw]), hw, rxBytes_one_ready b ((rxReady_iff s).2 ⟨hnone, hfault⟩),
      rxTake_of_exceeds hstep (by rw [hcap]; exact exceedsCap_some.2 hlt), raiseOverflow]
  · cases effect_of_exec h with
    | bytes hw =>
      rw [rxBytes_of_not_ready hw ((rxReady_eq_false s).2 (.inr hover))]
      simp [hover]
    | value => simp [hover]
    | event e hk => simp [hover, wireBytes_of_event hk]
    | init => cases hi
    | snapshot | enq | applyQ | feed | step | apply | dispatch => simp [hover, wireBytes]
  · obtain ⟨rows, columns, address, rfl⟩ := (isInit_iff i).1 hi
    obtain ⟨-, rfl⟩ := execInit_eq_next.1 h
    rfl
  · cases effect_of_exec h with
    | bytes => exact rxBytes_fault_of_inf _ hinf
    | init => cases hi
    | value | event | snapshot | enq | applyQ | feed | step | apply | dispatch => simp

/-! ### `PHASE` in one byte (10_state.md R14) -/

theorem phase_of_not_held {s : State} (h : s.handover = none) : phase s = .awaitStart ∨ phase s = .accumulating := by
  cases hp : s.pending <;> simp [phase, h, hp]

theorem phaseTrace_of_no_frame {s : State} {b : Byte} (h : (stepByte s.pending b).2 = none) :
    phaseTrace b s = [phase (rxTake b s)] := by
  simp [phaseTrace, h]

theorem phaseTrace_of_ok {s : State} {b : Byte} {fr : List Byte} {u : PixelUpdate}
    (h : (stepByte s.pending b).2 = some fr) (hd : decodeFrame s.par.hexLowerOk s.cfg fr = .ok u) :
    phaseTrace b s = [.frameReady, .validUpdate] := by
  simp [phaseTrace, h, hd]

theorem phaseTrace_of_not_ok {s : State} {b : Byte} {fr : List Byte} (h : (stepByte s.pending b).2 = some fr)
    (hd : ∀ u, decodeFrame s.par.hexLowerOk s.cfg fr ≠ .ok u) :
    phaseTrace b s = [.frameReady, .dropped, .awaitStart] := by
  rw [phaseTrace, h]
  dsimp only
  split
  · next u hu => exact absurd hu (hd u)
  · rfl

/-- A byte that completes no frame emits nothing and leaves `HANDOVER`, with an overflow or without. -/
theorem rxTake_of_no_frame {s : State} {b : Byte} (h : (stepByte s.pending b).2 = none) :
    (rxTake b s).evt = s.evt ∧ (rxTake b s).handover = s.handover := by
  unfold rxTake
  split
  · split <;> exact ⟨rfl, rfl⟩
  · next hs => rw [hs] at h; cases h

/-- Settles O56: no frame, an accepted frame, a dropped frame. -/
theorem phasesOfOneByte : Obligations.PhasesOfOneByte := by
  intro s b hnone hp
  rcases rxTake_cases b hp with ⟨p, hstep, -, -⟩ | ⟨hstep, -, ht⟩
  · have hno : (stepByte s.pending b).2 = none := by rw [hstep]
    obtain ⟨hevt, hhand⟩ := rxTake_of_no_frame hno
    have hphase := phase_of_not_held (hhand.trans hnone)
    rw [phaseTrace_of_no_frame hno, hevt]
    rcases hphase with h | h <;> simp [h]
  · have hfr : (stepByte s.pending b).2 = some (s.pending ++ [b]) := by rw [hstep]
    by_cases hd : ∃ u, decodeFrame s.par.hexLowerOk s.cfg (s.pending ++ [b]) = .ok u
    · obtain ⟨u, hu⟩ := hd
      rw [phaseTrace_of_ok hfr hu, ht, takeFrame_of_ok hu]
      simp [phase]
    · have hd := not_exists.1 hd
      rw [phaseTrace_of_not_ok hfr hd, ht, takeFrame_of_not_ok hd]
      simp [phase, hnone]

end Sys2Proof.Machine
end

section
/-! Proofs about reads and storage (20_memory.md R41): what SNAPSHOT, RDCOUNT, SNAPRD and `decode` write, and that a read
repeats. -/

namespace Sys2Proof.Machine

/-- SNAPSHOT writes no item it reads, so a second one gives the same state. -/
theorem execSnapshot_repeats {s t : State} (h : execSnapshot s = .next t) : execSnapshot t = .next t := by
  obtain ⟨hl, rfl⟩ := whenLive_eq_next.1 h
  exact whenLive_of_live _ hl

/-- RDCOUNT does not clear `UPDATED_COUNT`, so a second one gives the same state. -/
theorem execRdCount_repeats {s t : State} (h : execRdCount s = .next t) : execRdCount t = .next t := by
  obtain ⟨hl, rfl⟩ := whenLive_eq_next.1 h
  exact whenLive_of_live _ hl

/-- SNAPRD leaves the snapshot it reads and `CFG`, so a second one has a meaning too and gives the same state. -/
theorem execSnapRd_repeats {r c : Word32} {s t : State} (h : execSnapRd r c s = .next t) :
    execSnapRd r c t = .next t := by
  obtain ⟨hl, g, hg, hin, rfl⟩ := execSnapRd_eq_next.1 h
  exact execSnapRd_eq_next.2 ⟨hl, g, hg, hin, rfl⟩

/-- `decode` has a next state only after an INIT: the same state with its outcome in the returned value. -/
theorem execDecodeFn_eq_next {f : List Byte} {s t : State} :
    execDecodeFn f s = .next t ↔
      s.live = true ∧ returns (.outcome (decodeFrame s.par.hexLowerOk s.cfg f)) s = t :=
  whenLive_eq_next

/-- Settles O42, read by read; `decode` looks at `CFG`, the parameters and the frame only. -/
theorem readsHaveNoSideEffects : Obligations.ReadsHaveNoSideEffects := by
  refine ⟨fun s t i hread h => ?_, fun s s' t t' f h h' hcfg hpar => ?_⟩
  · rcases hread with rfl | rfl | ⟨r, c, rfl⟩
    · have hrep := execSnapshot_repeats h
      obtain ⟨-, rfl⟩ := whenLive_eq_next.1 h
      exact ⟨rfl, fun hne => absurd rfl hne, hrep⟩
    · have hrep := execRdCount_repeats h
      obtain ⟨-, rfl⟩ := whenLive_eq_next.1 h
      exact ⟨rfl, fun _ => rfl, hrep⟩
    · have hrep := execSnapRd_repeats h
      obtain ⟨-, g, -, -, rfl⟩ := execSnapRd_eq_next.1 h
      exact ⟨rfl, fun _ => rfl, hrep⟩
  · obtain ⟨-, rfl⟩ := execDecodeFn_eq_next.1 h
    obtain ⟨-, rfl⟩ := execDecodeFn_eq_next.1 h'
    exact ⟨rfl, by simp [hcfg, hpar]⟩

end Sys2Proof.Machine
end

section
/-! Proofs about the encoding (30_encoding.md): digit classes against their bytes (R57), the decoder against the encoder
(notes/assumptions/4.md), and the digit table against `hexval` (41_decoder.md R80). -/

namespace Sys2Proof
open Laws Machine

/-! ### Masked bytes -/

theorem and_allOnes_shiftLeft_toNat (c : Byte) (w : Nat) :
    (c &&& BitVec.allOnes 8 <<< w).toNat = c.toNat / 2 ^ w * 2 ^ w := by
  rw [← BitVec.shiftLeft_ushiftRight, BitVec.toNat_shiftLeft, BitVec.toNat_ushiftRight, Nat.shiftLeft_eq,
    Nat.shiftRight_eq_div_pow]
  exact Nat.mod_eq_of_lt ((Nat.div_mul_le_self _ _).trans_lt c.isLt)

theorem and_f8_eq_iff (c b : Byte) : c &&& 0xF8#8 = b ↔ c.toNat / 8 * 8 = b.toNat := by
  rw [← BitVec.toNat_inj]; exact (and_allOnes_shiftLeft_toNat c 3) ▸ Iff.rfl

theorem and_fe_eq_iff (c b : Byte) : c &&& 0xFE#8 = b ↔ c.toNat / 2 * 2 = b.toNat := by
  rw [← BitVec.toNat_inj]; exact (and_allOnes_shiftLeft_toNat c 1) ▸ Iff.rfl

/-- A byte is its masked high bits with its low bits put back. -/
theorem digitByte_setWidth {w : Nat} (c : Byte) : digitByte (c &&& BitVec.allOnes 8 <<< w) (c.setWidth w) = c := by
  ext j hj
  by_cases h : j < w <;> simp [digitByte, h, hj, -BitVec.reduceAllOnes]

theorem digitByte_of_and_f8 {c b : Byte} (h : c &&& 0xF8#8 = b) : digitByte b (c.setWidth 3) = c :=
  h ▸ digitByte_setWidth c

theorem digitByte_of_and_fe {c b : Byte} (h : c &&& 0xFE#8 = b) : digitByte b (c.setWidth 1) = c :=
  h ▸ digitByte_setWidth c

/-! ### The digit table (R57) -/

/-- The byte of a digit class; no other operation has one. -/
def digitClassByte : Instr → Byte
  | .hex07 d => digitByte 0x30#8 d
  | .hex89 d => digitByte 0x38#8 d
  | .hexUpA => 0x41#8
  | .hexUpBC d => digitByte 0x42#8 d
  | .hexUpDE d => digitByte 0x44#8 d
  | .hexUpF => 0x46#8
  | .hexLoA => 0x61#8
  | .hexLoBC d => digitByte 0x62#8 d
  | .hexLoDE d => digitByte 0x64#8 d
  | .hexLoF => 0x66#8
  | .notHex c => c
  | _ => 0#8

/-- Every digit class is its format's tag and its byte. -/
theorem encode_of_hexDigit {i : Instr} (h : instrFormat i = .hexDigit) :
    encode i = [formatTag .hexDigit, digitClassByte i] := by
  cases i <;> cases h <;> rfl

/-- Every digit class run as an operation is `hexval` of its byte (notes/assumptions/8.md). -/
theorem exec_of_hexDigit {i : Instr} (s : State) (h : instrFormat i = .hexDigit) :
    exec i s = .next { s with result := .digit (hexval s.par.hexLowerOk (digitClassByte i)) } := by
  cases i <;> cases h <;> rfl

theorem matchesHexRow_eq_false_iff (lowerOk : Bool) (c : Byte) :
    matchesHexRow lowerOk c = false ↔ ¬ (0x30 ≤ c.toNat ∧ c.toNat ≤ 0x39) ∧ ¬ (0x41 ≤ c.toNat ∧ c.toNat ≤ 0x46) ∧
      ¬ (lowerOk = true ∧ 0x61 ≤ c.toNat ∧ c.toNat ≤ 0x66) := by
  cases lowerOk <;> simp [matchesHexRow, and_f8_eq_iff, and_fe_eq_iff] <;> simp only [← BitVec.toNat_inj] <;> simp <;> omega

/-- Inside a range that opens at `base`, a digit's value is what the byte's number is over `base`. -/
theorem sub_setWidth_eq_iff {c base : Byte} {v : BitVec 4} (hle : base.toNat ≤ c.toNat)
    (hlt : c.toNat < base.toNat + 16) : (c - base).setWidth 4 = v ↔ c.toNat = base.toNat + v.toNat := by
  have hv := v.isLt
  rw [← BitVec.toNat_inj, BitVec.toNat_setWidth, BitVec.toNat_sub_of_le hle]
  omega

theorem hexval_eq_some_iff (lowerOk : Bool) (c : Byte) (v : BitVec 4) :
    hexval lowerOk c = some v ↔
      (v.toNat ≤ 9 ∧ c.toNat = 0x30 + v.toNat) ∨ (10 ≤ v.toNat ∧ c.toNat = 0x37 + v.toNat) ∨
        (lowerOk = true ∧ 10 ≤ v.toNat ∧ c.toNat = 0x57 + v.toNat) := by
  have hv := v.isLt
  unfold hexval
  simp only [BitVec.le_def]
  split_ifs
  iterate 3 (rw [Option.some_inj, sub_setWidth_eq_iff] <;> simp_all <;> omega)
  · cases lowerOk <;> simp_all <;> omega

/-- The table's default is where `hexval` has no value (R57, R80). -/
theorem hexval_eq_none_iff (lowerOk : Bool) (c : Byte) : hexval lowerOk c = none ↔ matchesHexRow lowerOk c = false := by
  rw [matchesHexRow_eq_false_iff]
  unfold hexval
  simp only [BitVec.le_def, BitVec.toNat_ofNat]
  split_ifs <;> simp_all

theorem decodeHexDigit_format (lowerOk : Bool) (c : Byte) : instrFormat (decodeHexDigit lowerOk c) = .hexDigit := by
  unfold decodeHexDigit
  split_ifs <;> rfl

/-- The class the table gives a byte has this byte: the open low bits are the byte's own. -/
theorem digitClassByte_decodeHexDigit (lowerOk : Bool) (c : Byte) : digitClassByte (decodeHexDigit lowerOk c) = c := by
  unfold decodeHexDigit
  split_ifs <;> simp_all [digitClassByte, digitByte_of_and_f8, digitByte_of_and_fe]

theorem decodeHexDigit_wellFormed (lowerOk : Bool) (c : Byte) : (decodeHexDigit lowerOk c).wellFormed lowerOk = true := by
  unfold decodeHexDigit
  split_ifs with _ _ _ _ _ _ ha hbc hde hf
  iterate 6 rfl
  · exact (Bool.and_eq_true_iff.1 ha).1
  · exact (Bool.and_eq_true_iff.1 hbc).1
  · exact (Bool.and_eq_true_iff.1 hde).1
  · exact (Bool.and_eq_true_iff.1 hf).1
  · cases lowerOk <;> simp_all [Instr.wellFormed, matchesHexRow]

/-- A digit class is what the table gives its byte, if it is well formed. -/
theorem decodeHexDigit_digitClassByte {lowerOk : Bool} {i : Instr} (h : instrFormat i = .hexDigit)
    (hw : i.wellFormed lowerOk = true) : decodeHexDigit lowerOk (digitClassByte i) = i := by
  cases i with
  | hex07 d | hex89 d | hexUpBC d | hexUpDE d | hexLoBC d | hexLoDE d => clear h; revert lowerOk d; decide
  | hexUpA | hexUpF | hexLoA | hexLoF => revert lowerOk; decide
  | notHex c => cases lowerOk <;> simp_all [Instr.wellFormed, matchesHexRow, decodeHexDigit, digitClassByte]
  | _ => cases h

/-- The table and the bytes of its classes are inverse to each other. -/
theorem decodeHexDigit_eq_iff {lowerOk : Bool} {c : Byte} {i : Instr} (h : instrFormat i = .hexDigit) :
    decodeHexDigit lowerOk c = i ↔ i.wellFormed lowerOk = true ∧ digitClassByte i = c := by
  constructor
  · rintro rfl
    exact ⟨decodeHexDigit_wellFormed lowerOk c, digitClassByte_decodeHexDigit lowerOk c⟩
  · rintro ⟨hw, rfl⟩
    exact decodeHexDigit_digitClassByte h hw

theorem digitByte_toNat {w : Nat} {base : Byte} (d : BitVec w) (hw : w ≤ 8) (hbase : 2 ^ w ∣ base.toNat) :
    (digitByte base d).toNat = base.toNat + d.toNat := by
  obtain ⟨k, hk⟩ := hbase
  rw [digitByte, BitVec.toNat_or, BitVec.toNat_setWidth_of_le hw, hk, Nat.two_pow_add_eq_or_of_lt d.isLt]

/-- The bytes of a class by number: its base and the open low bits. -/
theorem digitByte_eq_iff {w : Nat} {base : Byte} (d : BitVec w) (c : Byte) (hw : w ≤ 8 := by decide)
    (hbase : 2 ^ w ∣ base.toNat := by decide) : digitByte base d = c ↔ c.toNat = base.toNat + d.toNat := by
  rw [← BitVec.toNat_inj, digitByte_toNat d hw hbase, eq_comm]

theorem byte_eq_iff_toNat (b c : Byte) : b = c ↔ c.toNat = b.toNat := by
  rw [← BitVec.toNat_inj, eq_comm]

/-- Settles O8: the table is inverse to the bytes of its classes, and these are read by number. -/
theorem digitTableAgreesWithHexval : Obligations.DigitTableAgreesWithHexval := by
  intro s c
  have hexec := exec_of_hexDigit s (decodeHexDigit_format s.par.hexLowerOk c)
  rw [digitClassByte_decodeHexDigit] at hexec
  refine ⟨⟨?_, fun d => ?_, fun d => ?_, ?_, fun d => ?_, fun d => ?_, ?_, ?_, fun d => ?_, fun d => ?_, ?_⟩,
    hexval_eq_some_iff _ c, hexec, rfl⟩ <;> rw [decodeHexDigit_eq_iff rfl] <;>
    simp only [Instr.wellFormed, digitClassByte, true_and]
  · simp [hexval_eq_none_iff]
  · exact digitByte_eq_iff d c
  · exact digitByte_eq_iff d c
  · exact byte_eq_iff_toNat _ c
  · exact digitByte_eq_iff d c
  · exact digitByte_eq_iff d c
  · exact byte_eq_iff_toNat _ c
  · exact and_congr_right' (byte_eq_iff_toNat _ c)
  · exact and_congr_right' (digitByte_eq_iff d c)
  · exact and_congr_right' (digitByte_eq_iff d c)
  · exact and_congr_right' (byte_eq_iff_toNat _ c)

/-- Settles O7: a digit class returns `hexval` of its byte; each class has at most 8 bytes, looked up one by one. -/
theorem digitClassesGiveTheirValues : Obligations.DigitClassesGiveTheirValues := by
  intro s
  have hexec {i : Instr} {v : Option (BitVec 4)} (hf : instrFormat i = .hexDigit)
      (hv : hexval s.par.hexLowerOk (digitClassByte i) = v) : exec i s = .next { s with result := .digit v } :=
    hv ▸ exec_of_hexDigit s hf
  refine ⟨fun d => hexec rfl ?_, fun d => hexec rfl ?_, hexec rfl ?_, fun d => hexec rfl ?_, fun d => hexec rfl ?_,
    hexec rfl ?_, hexec rfl ?_, fun d => hexec rfl ?_, fun d => hexec rfl ?_, hexec rfl ?_,
    fun c hc => hexec rfl ((hexval_eq_none_iff _ c).2 hc)⟩ <;> generalize s.par.hexLowerOk = lowerOk
  iterate 2 (revert lowerOk d; decide)
  · revert lowerOk; decide
  iterate 2 (revert lowerOk d; decide)
  iterate 2 (revert lowerOk; decide)
  iterate 2 (revert lowerOk d; decide)
  · revert lowerOk; decide

/-! ### The script (notes/assumptions/4.md) -/

/-- Settles O3: the decoder evaluated on each word. -/
theorem tableWordsDecode : Obligations.TableWordsDecode :=
  ⟨rfl, rfl, rfl, rfl, rfl, rfl, rfl, rfl, rfl⟩

theorem decodeByteClass_of_other {b : Byte} {lowerOk : Bool} (h : (Instr.other b).wellFormed lowerOk = true) :
    decodeByteClass b = .other b := by
  simp_all [Instr.wellFormed, decodeByteClass]

theorem decode_encode_of_hexDigit {lowerOk : Bool} {i : Instr} (rest : List Byte) (h : instrFormat i = .hexDigit)
    (hw : i.wellFormed lowerOk = true) : decode lowerOk (encode i ++ rest) = .ok (i, rest) := by
  simp [encode_of_hexDigit h, decodeAs, decodeByte1, decodeHexDigit_digitClassByte h hw]

/-- Settles O4, format by format: the bytes of each operand are read back. -/
theorem encodedOperationDecodes : Obligations.EncodedOperationDecodes := by
  intro lowerOk i rest hw
  cases i with
  | stx | etx => rfl
  | other b => simp [encode, decodeAs, decodeByte1, decodeByteClass_of_other hw]
  | hex07 | hex89 | hexUpA | hexUpBC | hexUpDE | hexUpF | hexLoA | hexLoBC | hexLoDE | hexLoF | notHex =>
    exact decode_encode_of_hexDigit rest rfl hw
  | frameHeader cmd addr res => simp [encode, decodeAs, decodeHeader, halfBytes, halfOf_byteOf]
  | init rows columns address => simp [encode, decodeAs, decodeHostStrobe, wordBytes, wordOf_byteOf]
  | snapRd r c => simp [encode, decodeAs, decodeSnapRd, wordBytes, wordOf_byteOf]
  | evtOk w => cases w <;> rfl
  | framePayloadPair | frameTrailer | snapshot | rxByte | enq | applyQ | rdCount | evtTooShort | evtInvalidFraming
  | evtChecksumMismatch | evtNotAddressedToUs | stepFn | hexvalFn | hexpairFn | snapshotFn => rfl
  | feedFn bs | cksumFn bs | decodeFn bs | applyFn bs | dispatchFn bs =>
    simp [encode, decodeAs, decodeBytes_encodeBytes _ bs rest (of_decide_eq_true hw)]

/-- What an accepted operation has in common over the formats: it is well formed, and what is left is a suffix. -/
def Accepts (lowerOk : Bool) (i : Instr) (bs rest : List Byte) : Prop := i.wellFormed lowerOk = true ∧ rest <:+ bs

section
variable {lowerOk : Bool} {bs rest : List Byte} {i : Instr}

theorem decodeByte1_accepts {mk : Byte → Instr} (h : decodeByte1 mk bs = .ok (i, rest))
    (hw : ∀ b, (mk b).wellFormed lowerOk = true) : Accepts lowerOk i bs rest := by
  match bs, h with
  | b :: _, rfl => exact ⟨hw b, [b], rfl⟩

theorem decodeByte2_accepts {mk : Byte → Byte → Instr} (h : decodeByte2 mk bs = .ok (i, rest))
    (hw : ∀ a b, (mk a b).wellFormed lowerOk = true) : Accepts lowerOk i bs rest := by
  match bs, h with
  | a :: b :: _, rfl => exact ⟨hw a b, [a, b], rfl⟩

theorem decodeBytes_accepts {mk : List Byte → Instr} (h : decodeBytes mk bs = .ok (i, rest))
    (hw : ∀ operand, operand.length < 2 ^ 32 → (mk operand).wellFormed lowerOk = true) : Accepts lowerOk i bs rest := by
  obtain ⟨operand, n, rfl, hlen, rfl⟩ := decodeBytes_ok h
  exact ⟨hw operand hlen, List.suffix_append _ _⟩

theorem decodeByteClass_wellFormed (b : Byte) : (decodeByteClass b).wellFormed lowerOk = true := by
  unfold decodeByteClass
  split_ifs <;> simp_all [Instr.wellFormed]

/-- A decoder that checks a marker or a vector accepts only what stands behind its check. -/
theorem eq_of_guarded {c : Prop} [Decidable c] {x y : Instr × List Byte} {e : DecodeError}
    (h : (if c then .ok x else .error e : Except DecodeError (Instr × List Byte)) = .ok y) : x = y := by
  split_ifs at h
  exact Except.ok.inj h

theorem decodeHeader_accepts (h : decodeHeader bs = .ok (i, rest)) : Accepts lowerOk i bs rest := by
  match bs, h with
  | m :: cmd :: addr :: rh :: rl :: _, h =>
    cases eq_of_guarded h
    exact ⟨rfl, [m, cmd, addr, rh, rl], rfl⟩

theorem decodePair_accepts (h : decodePair bs = .ok (i, rest)) : Accepts lowerOk i bs rest := by
  match bs, h with
  | a :: b :: _, rfl => exact ⟨rfl, [a, b], rfl⟩

theorem decodeTrailer_accepts (h : decodeTrailer bs = .ok (i, rest)) : Accepts lowerOk i bs rest := by
  match bs, h with
  | m :: a :: b :: _, h =>
    cases eq_of_guarded h
    exact ⟨rfl, [m, a, b], rfl⟩

theorem decodeHostStrobe_accepts (h : decodeHostStrobe bs = .ok (i, rest)) : Accepts lowerOk i bs rest := by
  match bs, h with
  | v :: tail, h =>
    dsimp only [decodeHostStrobe] at h
    split at h
    · match tail, h with
      | r3 :: r2 :: r1 :: r0 :: c3 :: c2 :: c1 :: c0 :: a :: _, rfl =>
        exact ⟨rfl, [v, r3, r2, r1, r0, c3, c2, c1, c0, a], rfl⟩
    · split_ifs at h
      cases h
      exact ⟨rfl, [v], rfl⟩

theorem decodeHandshake_accepts (h : decodeHandshake bs = .ok (i, rest)) : Accepts lowerOk i bs rest := by
  match bs, h with
  | v :: b :: _, h =>
    cases eq_of_guarded h
    exact ⟨rfl, [v, b], rfl⟩

theorem decodeRxSelect_accepts (h : decodeRxSelect bs = .ok (i, rest)) : Accepts lowerOk i bs rest := by
  match bs, h with
  | v :: _, h =>
    cases eq_of_guarded h
    exact ⟨rfl, [v], rfl⟩

theorem decodeWrSelect_accepts (h : decodeWrSelect bs = .ok (i, rest)) : Accepts lowerOk i bs rest := by
  match bs, h with
  | v :: _, h =>
    cases eq_of_guarded h
    exact ⟨rfl, [v], rfl⟩

theorem decodeSnapRd_accepts (h : decodeSnapRd bs = .ok (i, rest)) : Accepts lowerOk i bs rest := by
  match bs, h with
  | r3 :: r2 :: r1 :: r0 :: c3 :: c2 :: c1 :: c0 :: _, rfl => exact ⟨rfl, [r3, r2, r1, r0, c3, c2, c1, c0], rfl⟩

theorem decodeEvent_accepts (h : decodeEvent bs = .ok (i, rest)) : Accepts lowerOk i bs rest := by
  match bs, h with
  | code :: tail, h =>
    dsimp only [decodeEvent] at h
    split at h
    · match tail, h with
      | w :: _, h =>
        dsimp only at h
        split_ifs at h <;> cases h <;> exact ⟨rfl, [code, w], rfl⟩
    · split_ifs at h <;> cases h <;> exact ⟨rfl, [code], rfl⟩

theorem decodeAs_accepts {f : Format} (h : decodeAs lowerOk f bs = .ok (i, rest)) : Accepts lowerOk i bs rest := by
  cases f with
  | byteClass => exact decodeByte1_accepts h decodeByteClass_wellFormed
  | hexDigit => exact decodeByte1_accepts h (decodeHexDigit_wellFormed lowerOk)
  | header => exact decodeHeader_accepts h
  | pair => exact decodePair_accepts h
  | trailer => exact decodeTrailer_accepts h
  | hostStrobe => exact decodeHostStrobe_accepts h
  | handshake => exact decodeHandshake_accepts h
  | rxSelect => exact decodeRxSelect_accepts h
  | wrSelect => exact decodeWrSelect_accepts h
  | snapRd => exact decodeSnapRd_accepts h
  | event => exact decodeEvent_accepts h
  | step | hexval => exact decodeByte1_accepts h (fun _ => rfl)
  | hexpair => exact decodeByte2_accepts h (fun _ _ => rfl)
  | feed | cksum | decode | apply | dispatch => exact decodeBytes_accepts h (fun _ hlen => decide_eq_true hlen)
  | rdCount | snapshot => cases h; exact ⟨rfl, List.suffix_rfl⟩

end

/-- Settles O5: the tag is a byte of its own, the rest is the format's to judge. -/
theorem decodedOperationIsWellFormed : Obligations.DecodedOperationIsWellFormed := by
  intro lowerOk bs rest i h
  obtain ⟨tag, f, bs', rfl, hf⟩ := decode_ok_cases h
  obtain ⟨hw, operands, rfl⟩ := decodeAs_accepts hf
  exact ⟨hw, tag :: operands, List.cons_ne_nil _ _, rfl⟩

end Sys2Proof
end

section
/-! Proofs about the selection vectors (30_encoding.md R62) and the event rows (R61). -/

namespace Sys2Proof.Machine

/-- Settles O6: a vector stands at its match bit by bit. -/
theorem selectionVectorsSayEnabled : Obligations.SelectionVectorsSayEnabled := by
  intro s hcap
  refine ⟨?_, ?_, fun rxValid => ?_⟩
  · have hbits : rxVector s = 0b10#2 ↔ s.handover.isSome = true ∧ (s.queue.length == s.par.queueCap) = false := by
      unfold rxVector
      cases s.handover.isSome <;> cases s.queue.length == s.par.queueCap <;> decide
    rw [hbits, Option.isSome_iff_exists, beq_eq_false_iff_ne, exists_and_right]
    exact and_congr_right' ⟨fun hne => lt_of_le_of_ne hcap hne, fun hlt => hlt.ne⟩
  · have hbit : wrVector s = 1#1 ↔ decide (0 < s.queue.length) = true := by
      unfold wrVector
      cases decide (0 < s.queue.length) <;> decide
    rw [hbit, decide_eq_true_iff, List.length_pos_iff]
  · have hbits : handshakeVector rxValid s = 0b11#2 ↔ rxValid = true ∧ rxReady s = true := by
      unfold handshakeVector
      cases rxValid <;> cases rxReady s <;> decide
    rw [hbits, rxReady_iff]

/-- Settles O47: after an INIT each row emits its event. -/
theorem eventRowsAppendTheirEvent : Obligations.EventRowsAppendTheirEvent := fun _ hl =>
  ⟨fun _ => whenLive_of_live _ hl, whenLive_of_live _ hl, whenLive_of_live _ hl, whenLive_of_live _ hl,
    whenLive_of_live _ hl⟩

end Sys2Proof.Machine
end

section
/-! Proofs about the arrival of a field's bytes (30_encoding.md R50, 43_dispatcher.md R101; notes/assumptions/7.md). -/

namespace Sys2Proof.Machine

/-! ### A field as a run of RXBYTEs -/

theorem exec_rxByte_of_ready {s : State} (b : Byte) (hl : s.live = true) (hr : rxReady s = true) :
    exec (.rxByte b) s = .next (rxTake b s) :=
  (whenLive_of_live _ hl).trans (congrArg _ (rxBytes_one_ready b hr))

/-- RX takes a first part of the bytes, each as an RXBYTE; it stops before the end only where it is not ready, and the rest
goes back on offer. -/
theorem rxBytes_split (bs : List Byte) {s : State} (hl : s.live = true) :
    ∃ taken rest t, bs = taken ++ rest ∧ execAll (taken.map .rxByte) s = .next t ∧ t.stim = s.stim ∧
      (rest = [] ∨ rxReady t = false) ∧ rxBytes bs s = offerAgain rest t := by
  induction bs generalizing s with
  | nil => exact ⟨[], [], s, rfl, rfl, rfl, .inl rfl, rfl⟩
  | cons b bs ih =>
    cases hr : rxReady s with
    | false => exact ⟨[], b :: bs, s, rfl, rfl, rfl, .inr hr, rxBytes_cons_blocked b bs hr⟩
    | true =>
      obtain ⟨taken, rest, t, rfl, hall, hstim, hrest, hbytes⟩ := ih (s := rxTake b s) (by rwa [rxTake_live])
      refine ⟨b :: taken, rest, t, rfl, ?_, by rw [hstim, rxTake_stim], hrest, ?_⟩
      · simp only [List.map_cons, execAll, exec_rxByte_of_ready b hl hr, hall]
      · rw [rxBytes_cons_ready b _ hr, hbytes]

/-- Settles O28, from the split of the bytes into those RX takes and the rest. -/
theorem fieldBytesArriveInOrder : Obligations.FieldBytesArriveInOrder := by
  intro s i hl hw
  obtain ⟨taken, rest, t, hsplit, hall, hstim, hrest, hbytes⟩ := rxBytes_split (wireBytes i) hl
  refine ⟨taken, rest, t, hsplit, hall, hstim, hrest.imp_right (rxReady_eq_false t).1, ?_⟩
  rw [exec_of_wireBytes hl hw, hbytes, offerAgain, hstim]

/-! ### Bytes that stay in the buffer -/

theorem exceedsCap_mono {cap : Option Nat} {m n : Nat} (hle : m ≤ n) (h : exceedsCap cap n = false) :
    exceedsCap cap m = false := by
  cases cap with
  | none => rfl
  | some c =>
    simp only [exceedsCap, decide_eq_false_iff_not] at h ⊢
    omega

section
variable {s : State} (hr : rxReady s = true)
include hr

/-- A byte that completes no frame and finds room is buffered; the rest of the bytes meets the longer buffer. -/
theorem rxBytes_cons_kept {p p' : List Byte} {b : Byte} (bs : List Byte) (hstep : stepByte p b = (p', none))
    (hroom : exceedsCap s.par.pendingCap p'.length = false) :
    rxBytes (b :: bs) { s with pending := p } = rxBytes bs { s with pending := p' } := by
  rw [rxBytes_cons_ready b bs (s := { s with pending := p }) hr]
  simp [rxTake, hstep, hroom]

/-- Into a body a byte is appended as it stands. -/
theorem rxBytes_cons_body {body : List Byte} (b : Byte) (bs : List Byte) (hb : ETX ∉ body)
    (hroom : exceedsCap s.par.pendingCap (body.length + 2) = false) :
    rxBytes (b :: bs) { s with pending := STX :: body } = rxBytes bs { s with pending := STX :: (body ++ [b]) } :=
  rxBytes_cons_kept hr bs (stepByte_body b hb) (by simpa using hroom)

/-- Two bytes inside a body complete no frame, whatever they are (40_reassembler.md R78). -/
theorem rxBytes_pair {body : List Byte} (x y : Byte) (bs : List Byte) (hb : ETX ∉ body)
    (hroom : exceedsCap s.par.pendingCap (body.length + 3) = false) :
    rxBytes (x :: y :: bs) { s with pending := STX :: body } =
      rxBytes bs { s with pending := STX :: (body ++ [x, y]) } := by
  have hsecond : stepByte (STX :: (body ++ [x])) y = (STX :: (body ++ [x, y]), none) := by
    by_cases hx : x = ETX
    · subst hx
      exact stepByte_trailer0 y hb
    · rw [stepByte_body y (by simp [hb, Ne.symm hx])]
      simp
  rw [rxBytes_cons_body hr x _ hb (exceedsCap_mono (Nat.le_succ _) hroom)]
  exact rxBytes_cons_kept hr bs hsecond (by simpa using hroom)

end

/-- What a receiver that holds nothing makes of a frame it has cut. -/
theorem takeFrame_of_not_held {s : State} (fr : List Byte) (h : s.handover = none) :
    takeFrame fr s = { s with
      pending := []
      evt := s.evt ++ [eventOf (decodeFrame s.par.hexLowerOk s.cfg fr)]
      handover := match decodeFrame s.par.hexLowerOk s.cfg fr with | .ok u => some u | _ => none } := by
  unfold takeFrame
  cases decodeFrame s.par.hexLowerOk s.cfg fr <;> simp [settleOutcome, emitEvent, h]

/-- The second character after the end marker completes the frame, which a ready receiver decodes and settles. -/
theorem rxBytes_last {s : State} {body : List Byte} (h l : Byte) (hr : rxReady s = true) (hb : ETX ∉ body) :
    rxBytes [l] { s with pending := STX :: (body ++ [ETX, h]) } = { s with
      pending := []
      evt := s.evt ++ [eventOf (decodeFrame s.par.hexLowerOk s.cfg (STX :: (body ++ [ETX, h, l])))]
      handover := match decodeFrame s.par.hexLowerOk s.cfg (STX :: (body ++ [ETX, h, l])) with
        | .ok u => some u
        | _ => none } := by
  rw [rxBytes_one_ready (s := { s with pending := STX :: (body ++ [ETX, h]) }) l hr]
  simp only [rxTake, stepByte_trailer1 h l hb]
  exact takeFrame_of_not_held _ ((rxReady_iff s).1 hr).1

theorem setPending_self {s : State} {p : List Byte} (h : s.pending = p) : { s with pending := p } = s := by
  rw [← h]

/-! ### The fields -/

/-- Settles O31: two bytes inside a body. -/
theorem pairIsBuffered : Obligations.PairIsBuffered := by
  intro s body h l hl hnone hfault hp hb hroom
  refine (whenLive_of_live _ hl).trans (congrArg _ ?_)
  have hpair := rxBytes_pair ((rxReady_iff s).2 ⟨hnone, hfault⟩) h l [] hb hroom
  rwa [setPending_self hp] at hpair

/-- Settles O29: the start marker opens a body, command and address are no end markers, and the resolution is a pair inside
a body. -/
theorem headerIsBuffered : Obligations.HeaderIsBuffered := by
  intro s cmd addr res hl hnone hfault hp hcmd haddr hroom
  have hr : rxReady s = true := (rxReady_iff s).2 ⟨hnone, hfault⟩
  have hroomAt {n : Nat} (hn : n ≤ 5) : exceedsCap s.par.pendingCap n = false := exceedsCap_mono hn hroom
  have hbody1 : ETX ∉ [cmd] := by simpa [ETX] using Ne.symm hcmd
  have hbody2 : ETX ∉ [cmd, addr] := by simpa [ETX] using ⟨Ne.symm hcmd, Ne.symm haddr⟩
  refine ⟨byteOf 1 res, byteOf 0 res, by rw [← halfOf_toNat, halfOf_byteOf], ?_⟩
  refine (whenLive_of_live _ hl).trans (congrArg _ ?_)
  calc rxBytes [STX, cmd, addr, byteOf 1 res, byteOf 0 res] s
    _ = rxBytes [STX, cmd, addr, byteOf 1 res, byteOf 0 res] { s with pending := [] } := by rw [setPending_self hp]
    _ = rxBytes [cmd, addr, byteOf 1 res, byteOf 0 res] { s with pending := [STX] } :=
      rxBytes_cons_kept hr _ stepByte_start (hroomAt (by decide))
    _ = rxBytes [addr, byteOf 1 res, byteOf 0 res] { s with pending := [STX, cmd] } :=
      rxBytes_cons_body hr cmd _ List.not_mem_nil (hroomAt (by decide))
    _ = rxBytes [byteOf 1 res, byteOf 0 res] { s with pending := [STX, cmd, addr] } :=
      rxBytes_cons_body hr addr _ hbody1 (hroomAt (by simp))
    _ = { s with pending := [STX, cmd, addr, byteOf 1 res, byteOf 0 res] } := rxBytes_pair hr _ _ [] hbody2 hroom

/-- Settles O32: the end marker and the first character are a pair inside a body, the second character completes the frame. -/
theorem trailerCompletesTheFrame : Obligations.TrailerCompletesTheFrame := by
  intro s body h l r hl hnone hfault hp hb hroom hdecode
  have hr : rxReady s = true := (rxReady_iff s).2 ⟨hnone, hfault⟩
  have hpair := rxBytes_pair hr ETX h [l] hb hroom
  rw [setPending_self hp, rxBytes_last h l hr hb, hdecode] at hpair
  exact (whenLive_of_live _ hl).trans (congrArg _ hpair)

end Sys2Proof.Machine
end

section
/-! Proofs about the reassembler (40_reassembler.md): `feed` over chunk boundaries, the frames it cuts, and the byte that
changes nothing. -/

namespace Sys2Proof.Machine

/-! ### The calls of `feed` and `step` -/

section
variable {s : State} (hl : s.live = true)
include hl

/-- The call reads the buffer and overwrites the last result, so both may be any. -/
theorem exec_feedFn (p : List Byte) (r : Result) (chunk : List Byte) :
    exec (.feedFn chunk) { s with pending := p, result := r } =
      .next { s with pending := (feed p chunk).1, result := .frames (feed p chunk).2 } :=
  whenLive_of_live _ hl

theorem exec_stepFn (b : Byte) : exec (.stepFn b) s =
    .next { s with pending := (stepByte s.pending b).1, result := .frame (stepByte s.pending b).2 } :=
  whenLive_of_live _ hl

theorem exec_feedFn_of_feed {chunk p : List Byte} {fs : List (List Byte)} (h : feed s.pending chunk = (p, fs)) :
    exec (.feedFn chunk) s = .next { s with pending := p, result := .frames fs } :=
  (exec_feedFn hl s.pending s.result chunk).trans (by rw [h])

theorem exec_stepFn_of_step {b : Byte} {p : List Byte} {f : Option (List Byte)} (h : stepByte s.pending b = (p, f)) :
    exec (.stepFn b) s = .next { s with pending := p, result := .frame f } := by
  rw [exec_stepFn hl, h]

end

/-! ### `feed` over chunk boundaries (40_reassembler.md R72) -/

theorem feed_singleton {p : List Byte} (b : Byte) (hp : atRest p = true) :
    feed p [b] = ((stepByte p b).1, (stepByte p b).2.toList) := by
  rw [feed_cons b [] hp, feed_nil_of_atRest (atRest_stepByte b hp), List.append_nil]

theorem feed_append {p : List Byte} (c1 c2 : List Byte) (hp : atRest p = true) :
    feed p (c1 ++ c2) = ((feed (feed p c1).1 c2).1, (feed p c1).2 ++ (feed (feed p c1).1 c2).2) := by
  induction c1 generalizing p with
  | nil => simp [feed_nil_of_atRest hp]
  | cons b c1 ih => simp [feed_cons b _ hp, ih (atRest_stepByte b hp)]

/-- Settles O19: a chunk is taken byte by byte, so its boundaries do not show. -/
theorem feedIgnoresChunkBoundaries : Obligations.FeedIgnoresChunkBoundaries := by
  intro s hl hp
  refine ⟨exec_feedFn_of_feed hl (feed_nil_of_atRest hp), fun c1 c2 => ?_, fun b rest => ?_⟩
  · exact ⟨_, _, _, _, exec_feedFn hl _ _ c1, exec_feedFn hl _ _ c2, exec_feedFn_of_feed hl (feed_append c1 c2 hp)⟩
  · exact ⟨_, _, _, _, exec_stepFn hl b, exec_feedFn hl _ _ rest, exec_feedFn_of_feed hl (feed_cons b rest hp)⟩

/-! ### The frames `feed` cuts (40_reassembler.md R75) -/

theorem cutFrame_of_mem_feed_of_atRest {p chunk f : List Byte} (hp : atRest p = true) (h : f ∈ (feed p chunk).2) :
    CutFrame f := by
  induction chunk generalizing p with
  | nil => simp [feed_nil_of_atRest hp] at h
  | cons b rest ih =>
    rw [feed_cons b rest hp, List.mem_append] at h
    rcases h with hnow | hlater
    · rcases stepByte_cases b hp with ⟨p', hstep, -, -⟩ | ⟨hstep, hcut⟩
      · simp [hstep] at hnow
      · obtain rfl : f = p ++ [b] := by simpa [hstep] using hnow
        exact hcut
    · exact ih (atRest_stepByte b hp) hlater

/-- Every frame `feed` gives is cut at its markers, whatever buffer it starts from. -/
theorem cutFrame_of_mem_feed {p chunk f : List Byte} (h : f ∈ (feed p chunk).2) : CutFrame f := by
  rw [feed_eq_feed_nil] at h
  exact cutFrame_of_mem_feed_of_atRest rfl h

theorem CutFrame.four_le_length {f : List Byte} (h : CutFrame f) : 4 ≤ f.length := by
  obtain ⟨body, h, l, rfl, -⟩ := h
  simp

theorem CutFrame.byteAt_zero {f : List Byte} (h : CutFrame f) : byteAt f 0 = STX := by
  obtain ⟨body, h, l, rfl, -⟩ := h
  rfl

theorem CutFrame.endMarker {f : List Byte} (h : CutFrame f) : frameEndMarker f = ETX := by
  obtain ⟨body, h, l, rfl, -⟩ := h
  simp [frameEndMarker, byteAt, trailerLen]

/-- The length check (41_decoder.md R82) comes first and decides alone. -/
theorem decodeFrame_eq_tooShort_iff {lowerOk : Bool} {cfg : DisplayConfig} {f : List Byte} :
    decodeFrame lowerOk cfg f = .tooShort ↔ f.length < minFrameLen := by
  unfold decodeFrame
  split_ifs <;> simp_all

/-- The marker check (41_decoder.md R83) comes second and looks at two bytes only. -/
theorem decodeFrame_eq_invalidFraming_iff {lowerOk : Bool} {cfg : DisplayConfig} {f : List Byte} :
    decodeFrame lowerOk cfg f = .invalidFraming ↔
      minFrameLen ≤ f.length ∧ (byteAt f 0 ≠ STX ∨ frameEndMarker f ≠ ETX) := by
  unfold decodeFrame
  split_ifs <;> simp_all

/-- Settles O20: a cut frame has its markers where `decode` looks for them. -/
theorem emittedFramesHaveTheirShape : Obligations.EmittedFramesHaveTheirShape := by
  intro s t chunk f fs he hr hmem
  obtain ⟨-, rfl⟩ := whenLive_eq_next.1 he
  cases hr
  have hcut : CutFrame f := cutFrame_of_mem_feed hmem
  refine ⟨hcut, hcut.four_le_length, fun hinvalid => ?_, decodeFrame_eq_tooShort_iff.trans Nat.lt_succ_iff⟩
  obtain ⟨-, hstart | hend⟩ := decodeFrame_eq_invalidFraming_iff.1 hinvalid
  · exact hstart hcut.byteAt_zero
  · exact hend hcut.endMarker

/-! ### One pass of `feed` (40_reassembler.md R70) -/

theorem feed_of_append_eq {p chunk q : List Byte} (h : p ++ chunk = q) : feed p chunk = feed [] q := by
  rw [feed_eq_feed_nil, h]

/-- Settles O22, by the form of the buffer and the chunk together. -/
theorem feedCutsTheFirstFrame : Obligations.FeedCutsTheFirstFrame := by
  intro s chunk garbage body hl hg hb
  refine ⟨fun hq => ?_, fun hq => ?_, fun trailer ht hq => ?_, fun h l rest hq => ?_⟩
  · exact exec_feedFn_of_feed hl (by rw [feed_of_append_eq hq, feed_noStart hg])
  · exact exec_feedFn_of_feed hl (by rw [feed_of_append_eq hq]; simpa using feed_body hg hb)
  · exact exec_feedFn_of_feed hl (by rw [feed_of_append_eq hq]; simpa using feed_trailer hg hb ht)
  · exact ⟨_, _, exec_feedFn hl [] s.result rest,
      exec_feedFn_of_feed hl (by rw [feed_of_append_eq hq]; simpa using feed_frame h l rest hg hb)⟩

/-! ### The detector on one byte (40_reassembler.md R71, R73) -/

theorem stepByte_nil (b : Byte) : stepByte [] b = (if b = STX then [STX] else [], none) := by
  by_cases h : b = STX
  · rw [h, stepByte_start, if_pos rfl]
  · rw [stepByte_garbage h, if_neg h]

/-- Settles O18, by the shape of the buffer. -/
theorem detectorOnTheFourShapes : Obligations.DetectorOnTheFourShapes := by
  refine ⟨fun s b h body hl hb => ⟨fun hp => ?_, fun hp => ?_, fun hp => ?_, fun hp => ?_⟩, fun s b hl hp => ?_⟩
  · exact exec_stepFn_of_step hl (by rw [hp, stepByte_nil])
  · exact exec_stepFn_of_step hl (by rw [hp, stepByte_body b hb])
  · exact exec_stepFn_of_step hl (by rw [hp, stepByte_trailer0 b hb])
  · exact exec_stepFn_of_step hl (by rw [hp, stepByte_trailer1 h b hb])
  · exact ⟨_, _, exec_stepFn hl b, exec_feedFn_of_feed hl (feed_singleton b hp)⟩

/-- An empty buffer stays empty under a byte that is no start marker, and an empty buffer exceeds no `PENDING_CAP`. -/
theorem rxTake_garbage {s : State} {b : Byte} (hp : s.pending = []) (hb : b ≠ STX) : rxTake b s = s := by
  have hroom : exceedsCap s.par.pendingCap ([] : List Byte).length = false := exceedsCap_zero _
  have hstep : stepByte s.pending b = ([], none) := by rw [hp, stepByte_garbage hb]
  simp only [rxTake, hstep, hroom, Bool.false_eq_true, if_false]
  exact setPending_self hp

/-- Settles O24: the byte is taken, and taking it leaves the state. -/
theorem garbageByteChangesNothing : Obligations.GarbageByteChangesNothing := by
  intro s i b hl hnone hfault hw hp hb
  rw [exec_of_wireBytes hl (by simp [hw]), hw, rxBytes_one_ready b ((rxReady_iff s).2 ⟨hnone, hfault⟩),
    rxTake_garbage hp hb]

end Sys2Proof.Machine
end

section
/-! Proofs about the decoder (41_decoder.md): hexadecimal text (R80, R81), the checksum (R84), and the checks of `decode` in
their order (R82 to R89). -/

namespace Sys2Proof.Machine

/-! ### Hexadecimal text (41_decoder.md R80, R81) -/

/-- A difference that does not wrap may be taken in numbers. -/
theorem setWidth_sub_eq_ofNat {w v : Nat} {c base : BitVec w} (hle : base.toNat ≤ c.toNat) :
    (c - base).setWidth v = BitVec.ofNat v (c.toNat - base.toNat) := by
  rw [← BitVec.ofNat_toNat, BitVec.toNat_sub_of_le hle]

/-- Settles O9: no range opens below the base its digits are counted from. -/
theorem hexvalByRange : Obligations.HexvalByRange := by
  intro s c
  refine congrArg (fun d => Host.Outcome.next { s with result := .digit d }) ?_
  simp only [hexval, BitVec.le_def, BitVec.toNat_ofNat]
  congr! 4 with hdec _ hup _ hlo
  · exact setWidth_sub_eq_ofNat hdec.1
  · exact setWidth_sub_eq_ofNat (le_trans (by decide) hup.1)
  · exact setWidth_sub_eq_ofNat (le_trans (by decide) hlo.2.1)

/-- Two digits fit a byte. -/
theorem hexpair_eq_some {lowerOk : Bool} {c0 c1 : Byte} {h l : BitVec 4} (h0 : hexval lowerOk c0 = some h)
    (h1 : hexval lowerOk c1 = some l) :
    ∃ v : Byte, v.toNat = 16 * h.toNat + l.toNat ∧ hexpair lowerOk c0 c1 = some v := by
  have hh := h.isLt
  have hl := l.isLt
  refine ⟨16#8 * h.setWidth 8 + l.setWidth 8, ?_, by simp [hexpair, h0, h1]⟩
  simp only [BitVec.toNat_add, BitVec.toNat_mul, BitVec.toNat_setWidth, BitVec.toNat_ofNat]
  omega

theorem hexpair_eq_none {lowerOk : Bool} {c0 c1 : Byte} (h : hexval lowerOk c0 = none ∨ hexval lowerOk c1 = none) :
    hexpair lowerOk c0 c1 = none := by
  rcases h with h | h <;> simp [hexpair, h]

theorem exec_hexpairFn (c0 c1 : Byte) (s : State) :
    exec (.hexpairFn c0 c1) s = .next { s with result := .pair (hexpair s.par.hexLowerOk c0 c1) } := rfl

/-- Settles O10, by whether both characters are digits. -/
theorem hexpairHighDigitFirst : Obligations.HexpairHighDigitFirst := by
  intro s c0 c1
  refine ⟨fun h l h0 h1 => ?_, fun hnone => ?_⟩
  · obtain ⟨v, hv, hpair⟩ := hexpair_eq_some h0 h1
    exact ⟨v, hv, by rw [exec_hexpairFn, hpair]⟩
  · rw [exec_hexpairFn, hexpair_eq_none hnone]

/-! ### The checksum (41_decoder.md R84) -/

/-- XOR `0xFF`, plus 1, low 8 bits: the two's complement of the low byte. -/
theorem setWidth_xor_add_one (x : Word32) : ((x ^^^ 0xFF#32) + 1#32).setWidth 8 = -x.setWidth 8 := by
  rw [BitVec.setWidth_add _ _ (by decide), BitVec.setWidth_xor, BitVec.neg_eq_not_add, ← BitVec.xor_allOnes]
  rfl

/-- The closed form over the summed bytes: the accumulator's 32 bits do not show in the low byte. -/
theorem cksum_eq_ofInt (f : List Byte) :
    cksum f = BitVec.ofInt 8 (2 - byteSum (slice f 1 (f.length - (trailerLen + 1)))) := by
  generalize hn : byteSum (slice f 1 (f.length - (trailerLen + 1))) = n
  calc cksum f = -(BitVec.ofNat 32 n - 2#32).setWidth 8 := by rw [cksum, hn, setWidth_xor_add_one]
    _ = (2#32 - BitVec.ofNat 32 n).setWidth 8 := by rw [← BitVec.setWidth_neg_of_le (by decide), neg_sub]
    _ = 2#8 + -BitVec.ofNat 8 n := by
      rw [BitVec.sub_eq_add_neg, BitVec.setWidth_add _ _ (by decide), BitVec.setWidth_neg_of_le (by decide),
        BitVec.setWidth_ofNat_of_le (by decide), BitVec.setWidth_ofNat_of_le (by decide)]
    _ = BitVec.ofInt 8 (2 - n) := by
      rw [Int.sub_eq_add_neg, BitVec.ofInt_add, BitVec.ofInt_neg, BitVec.ofInt_natCast]
      rfl

theorem byteSum_append (xs ys : List Byte) : byteSum (xs ++ ys) = byteSum xs + byteSum ys := by
  simp [byteSum]

theorem cksum_frameOf (m cmd addr rh rl : Byte) (payload : List Byte) (e h l : Byte) :
    cksum (frameOf m cmd addr rh rl payload e h l) = fieldChecksum cmd addr rh rl payload := by
  rw [cksum_eq_ofInt, frameOf_summed, byteSum_append, fieldChecksum]
  simp [byteSum, add_assoc]

theorem exec_cksumFn (f : List Byte) (s : State) : exec (.cksumFn f) s = .next { s with result := .cksum (cksum f) } := rfl

/-- Settles O11: the closed form, with the summed bytes named by their fields or by their places. -/
theorem checksumClosedForm : Obligations.ChecksumClosedForm := by
  refine ⟨fun s m cmd addr rh rl payload e h l => ?_, fun s f => ?_⟩
  · rw [exec_cksumFn, cksum_frameOf]
  · rw [exec_cksumFn, cksum_eq_ofInt]
    rfl

/-! ### The checks of `decode` in their order (41_decoder.md R82 to R89) -/

/-- The length and marker checks (R82, R83), which come before the checksum, are passed. -/
def WellFramed (f : List Byte) : Prop := minFrameLen ≤ f.length ∧ byteAt f 0 = STX ∧ frameEndMarker f = ETX

section
variable {lowerOk : Bool} {cfg : DisplayConfig} {f : List Byte}

theorem decodeFrame_of_wellFramed (h : WellFramed f) : decodeFrame lowerOk cfg f =
    if frameChecksum lowerOk f ≠ some (cksum f) then .checksumMismatch
    else if frameAddress f ≠ cfg.address then .notAddressedToUs
    else .ok { address := frameAddress f, resolution := frameResolution f, bits := framePayload f,
               resWarn := resWarn cfg f } := by
  obtain ⟨hlen, hstart, hend⟩ := h
  rw [decodeFrame, if_neg (Nat.not_lt.2 hlen), if_neg (by simp [hstart, hend])]

theorem wellFramed_of_decodeFrame_eq_ok {u : PixelUpdate} (h : decodeFrame lowerOk cfg f = .ok u) :
    WellFramed f ∧ frameChecksum lowerOk f = some (cksum f) := by
  unfold decodeFrame at h
  split_ifs at h with hlen hmark hck
  obtain ⟨hstart, hend⟩ := not_or.1 hmark
  exact ⟨⟨Nat.not_lt.1 hlen, not_not.1 hstart, not_not.1 hend⟩, not_not.1 hck⟩

end

theorem exec_decodeFn {s : State} (f : List Byte) (hl : s.live = true) :
    exec (.decodeFn f) s = .next { s with result := .outcome (decodeFrame s.par.hexLowerOk s.cfg f) } :=
  execDecodeFn_eq_next.2 ⟨hl, rfl⟩

/-- Settles O12: the length check decides alone. -/
theorem shortFrameIsTooShort : Obligations.ShortFrameIsTooShort := by
  intro s f hl
  refine ⟨fun hshort => ?_, fun hlong => ⟨_, exec_decodeFn f hl, fun h => ?_⟩⟩
  · rw [exec_decodeFn f hl, decodeFrame_eq_tooShort_iff.2 hshort]
  · exact hlong.not_gt (decodeFrame_eq_tooShort_iff.1 h)

theorem minFrameLen_le_frameOf_length {m cmd addr rh rl : Byte} {payload : List Byte} {e h l : Byte} (hp : payload ≠ []) :
    minFrameLen ≤ (frameOf m cmd addr rh rl payload e h l).length := by
  rw [frameOf_length]
  exact Nat.add_le_add_right (List.length_pos_iff.2 hp) 8

/-- Settles O13: the markers of a frame written by its fields stand where `decode` looks. -/
theorem wrongMarkerIsInvalidFraming : Obligations.WrongMarkerIsInvalidFraming := by
  intro s m cmd addr rh rl payload e h l hl hp
  refine ⟨_, exec_decodeFn _ hl, ?_⟩
  rw [decodeFrame_eq_invalidFraming_iff, frameOf_byte0, frameOf_endMarker]
  exact and_iff_right (minFrameLen_le_frameOf_length hp)

/-- The checks on a frame with its markers, by its fields. -/
theorem decodeFrame_frameOf {lowerOk : Bool} {cfg : DisplayConfig} {cmd addr rh rl : Byte} {payload : List Byte}
    {h l : Byte} (hp : payload ≠ []) : decodeFrame lowerOk cfg (frameOf STX cmd addr rh rl payload ETX h l) =
    if hexpair lowerOk h l ≠ some (fieldChecksum cmd addr rh rl payload) then .checksumMismatch
    else if addr ≠ cfg.address then .notAddressedToUs
    else .ok { address := addr, resolution := halfOf rh rl, bits := payload,
               resWarn := decide (rh.toNat * 256 + rl.toNat ≠ expectedResolution cfg) } := by
  have hframed : WellFramed (frameOf STX cmd addr rh rl payload ETX h l) :=
    ⟨minFrameLen_le_frameOf_length hp, rfl, frameOf_endMarker _ _ _ _ _ _ _ _ _⟩
  rw [decodeFrame_of_wellFramed hframed, frameOf_checksum, cksum_frameOf, frameOf_address, frameOf_resolution,
    frameOf_payload, resWarn, frameOf_resolution, halfOf_toNat, decide_not]
  rfl

/-- Settles O14: behind the markers the trailer is the next thing compared. -/
theorem wrongTrailerIsChecksumMismatch : Obligations.WrongTrailerIsChecksumMismatch := by
  intro s cmd addr rh rl payload h l hl hp
  refine ⟨_, exec_decodeFn _ hl, ?_⟩
  rw [← STX, ← ETX, decodeFrame_frameOf hp]
  split_ifs with hck haddr
  · exact iff_of_true rfl hck
  all_goals exact iff_of_false nofun hck

/-- Settles O15: behind a right checksum only the address is left to fail. -/
theorem foreignAddressIsNotAddressedToUs : Obligations.ForeignAddressIsNotAddressedToUs := by
  intro s cmd addr rh rl payload h l hl hp hck
  refine ⟨_, exec_decodeFn _ hl, ?_⟩
  rw [← STX, ← ETX, decodeFrame_frameOf hp, if_neg (not_not.2 hck)]
  split_ifs with haddr
  · exact iff_of_true rfl haddr
  · exact iff_of_false nofun haddr

/-- Settles O16: every check passes, and the resolution field in numbers is `256 * rh + rl`. -/
theorem acceptedFrameGivesItsUpdate : Obligations.AcceptedFrameGivesItsUpdate := by
  intro s cmd addr rh rl payload h l hl hp hck haddr
  rw [exec_decodeFn _ hl, ← STX, ← ETX, decodeFrame_frameOf hp, if_neg (not_not.2 hck),
    if_neg (not_not.2 haddr), ← halfOf_toNat, BitVec.ofNat_toNat, BitVec.setWidth_eq]
  rfl

/-! ### One summed byte changed (70_reset_and_hazards.md R147) -/

section
variable (front : List Byte) (e h l : Byte)

theorem frameEndMarker_append : frameEndMarker (front ++ [e, h, l]) = e := by
  simp [frameEndMarker, byteAt, trailerLen]

theorem frameChecksum_append (lowerOk : Bool) : frameChecksum lowerOk (front ++ [e, h, l]) = hexpair lowerOk h l := by
  simp [frameChecksum, byteAt]

theorem summed_append : slice (front ++ [e, h, l]) 1 ((front ++ [e, h, l]).length - (trailerLen + 1)) = front.drop 1 := by
  simp [slice, trailerLen]

end

/-- A summed byte is subtracted modulo 256, wherever it stands. -/
theorem cksum_summed_byte (m : Byte) (pre post : List Byte) (x e h l : Byte) :
    cksum ([m] ++ pre ++ [x] ++ post ++ [e, h, l]) = BitVec.ofInt 8 (2 - byteSum (pre ++ post)) - x := by
  have hsum : byteSum (([m] ++ pre ++ [x] ++ post).drop 1) = byteSum (pre ++ post) + x.toNat := by
    simp [byteSum, add_comm, add_left_comm]
  rw [cksum_eq_ofInt, summed_append, hsum, Nat.cast_add, ← sub_sub, Int.sub_eq_add_neg, BitVec.ofInt_add,
    BitVec.ofInt_neg, BitVec.ofInt_natCast, BitVec.ofNat_toNat, BitVec.setWidth_eq, ← BitVec.sub_eq_add_neg]

/-- Settles O17: markers, length and trailer stay, and the checksum changes. -/
theorem oneByteChangedIsChecksumMismatch : Obligations.OneByteChangedIsChecksumMismatch := by
  intro s t pre post x y h l u he hr hne
  obtain ⟨hl, rfl⟩ := execDecodeFn_eq_next.1 he
  obtain ⟨⟨hlen, -, -⟩, hck⟩ := wellFramed_of_decodeFrame_eq_ok (Result.outcome.inj hr)
  have hframed : WellFramed ([STX] ++ pre ++ [y] ++ post ++ [ETX, h, l]) :=
    ⟨by simpa using hlen, rfl, frameEndMarker_append _ _ _ _⟩
  rw [frameChecksum_append] at hck
  have hmismatch : frameChecksum s.par.hexLowerOk ([STX] ++ pre ++ [y] ++ post ++ [ETX, h, l]) ≠
      some (cksum ([STX] ++ pre ++ [y] ++ post ++ [ETX, h, l])) := by
    rw [frameChecksum_append, hck, cksum_summed_byte, cksum_summed_byte, ne_eq, Option.some_inj, sub_right_inj]
    exact hne.symm
  rw [exec_decodeFn _ hl, ← STX, ← ETX, decodeFrame_of_wellFramed hframed, if_pos hmismatch]

end Sys2Proof.Machine
end


section
/-! Proofs about the bitmap (42_bitmap.md): `apply` as a fold over the pairs of its payload, and from that the cells it
writes (R91 to R95), its counts (R97) and its idempotence (R96); rows 8 and up (R98). -/

namespace Sys2Proof.Machine

/-! ### The pairs of a payload (30_encoding.md R54) -/

section
variable {lowerOk : Bool} {payload : List Byte}

@[simp] theorem pairValue_cons_zero (h l : Byte) : pairValue lowerOk (h :: l :: payload) 0 = hexpair lowerOk h l := rfl

@[simp] theorem pairValue_cons_succ (h l : Byte) (k : Nat) :
    pairValue lowerOk (h :: l :: payload) (k + 1) = pairValue lowerOk payload k := rfl

/-- A payload has as many pairs as half its length (42_bitmap.md R94). -/
theorem lt_pairs_of_pairValue_eq_some {k : Nat} {v : Byte} (h : pairValue lowerOk payload k = some v) :
    k < payload.length / 2 := by
  unfold pairValue at h
  split at h
  · next hl =>
    have := (List.getElem?_eq_some_iff.1 hl).1
    omega
  · cases h

end

/-- What `apply` makes of pair `k`: a malformed one is counted, a well-formed one written to its column. -/
def applyPair (cfg : DisplayConfig) (k : Nat) (a : ApplyResult) : Option Byte → ApplyResult
  | none => { a with hexErrs := a.hexErrs + 1 }
  | some v => writeColumn cfg k v a

/-- `apply`'s loop is a fold over the pairs, from pair `k` on. -/
theorem applyLoop_eq_foldl (lowerOk : Bool) (cfg : DisplayConfig) (k : Nat) (payload : List Byte) (a : ApplyResult) :
    applyLoop lowerOk cfg k payload a = (List.range (payload.length / 2)).foldl
      (fun a j => applyPair cfg (k + j) a (pairValue lowerOk payload j)) a := by
  have hlen (rest : List Byte) : (rest.length + 1 + 1) / 2 = rest.length / 2 + 1 := by omega
  fun_induction applyLoop lowerOk cfg k payload a with
  | case1 k c0 c1 rest a hp ih | case2 k c0 c1 rest a v hp ih =>
    simp [hlen, List.range_succ_eq_map, List.foldl_map, hp, applyPair, ih, Nat.add_assoc, Nat.add_comm 1]
  | case3 l k a hl =>
    match l with
    | [] | [_] => simp
    | c0 :: c1 :: rest => exact (hl c0 c1 rest rfl).elim

/-- The first `n` pairs of a payload applied. -/
def applyPairs (lowerOk : Bool) (cfg : DisplayConfig) (payload : List Byte) (a : ApplyResult) (n : Nat) : ApplyResult :=
  (List.range n).foldl (fun a k => applyPair cfg k a (pairValue lowerOk payload k)) a

theorem applyPayload_eq_applyPairs (lowerOk : Bool) (cfg : DisplayConfig) (g : Grid) (payload : List Byte) :
    applyPayload lowerOk cfg g payload =
      applyPairs lowerOk cfg payload { grid := g, count := 0#32, hexErrs := 0 } (payload.length / 2) := by
  simp [applyPayload, applyLoop_eq_foldl, applyPairs]

/-! ### The cells written (42_bitmap.md R91, R95) -/

/-- The value a payload gives a cell: a bit of the well-formed pair of its column, for rows 0 to 7 of the display. -/
def cellTarget (lowerOk : Bool) (cfg : DisplayConfig) (payload : List Byte) (r c : Nat) : Option Bool :=
  if r < rowsPerByte ∧ inGrid cfg r c = true then (pairValue lowerOk payload c).map (bitval · r) else none

theorem applyPair_get_other {cfg : DisplayConfig} {k : Nat} {a : ApplyResult} {p : Option Byte} {r c : Nat} (h : c ≠ k) :
    (applyPair cfg k a p).grid.get r c = a.grid.get r c := by
  cases p with
  | none => rfl
  | some v => rw [applyPair, writeColumn_get, if_neg fun hc => h hc.1]

section
variable {lowerOk : Bool} {cfg : DisplayConfig} {payload : List Byte} {a : ApplyResult}

theorem cellTarget_of_some {v : Byte} {r c : Nat} (hp : pairValue lowerOk payload c = some v) :
    cellTarget lowerOk cfg payload r c = if r < rowsPerByte ∧ inGrid cfg r c = true then some (bitval v r) else none := by
  rw [cellTarget, hp, Option.map_some]

theorem cellTarget_of_none {r c : Nat} (hp : pairValue lowerOk payload c = none) :
    cellTarget lowerOk cfg payload r c = none := by
  rw [cellTarget, hp, Option.map_none, ite_self]

theorem cellTarget_of_rowsPerByte_le {r : Nat} (c : Nat) (hr : rowsPerByte ≤ r) :
    cellTarget lowerOk cfg payload r c = none :=
  if_neg fun h => hr.not_gt h.1

theorem applyPairs_succ (n : Nat) : applyPairs lowerOk cfg payload a (n + 1) =
    applyPair cfg n (applyPairs lowerOk cfg payload a n) (pairValue lowerOk payload n) := by
  simp [applyPairs, List.range_succ]

theorem applyPair_get_same (r k : Nat) : (applyPair cfg k a (pairValue lowerOk payload k)).grid.get r k =
    (cellTarget lowerOk cfg payload r k).getD (a.grid.get r k) := by
  cases hp : pairValue lowerOk payload k with
  | none => rw [cellTarget_of_none hp]; rfl
  | some v =>
    rw [applyPair, writeColumn_get, cellTarget_of_some hp]
    by_cases hin : r < rowsPerByte ∧ inGrid cfg r k = true <;> simp [hin]

theorem applyPairs_get (n r c : Nat) : (applyPairs lowerOk cfg payload a n).grid.get r c =
    if c < n then (cellTarget lowerOk cfg payload r c).getD (a.grid.get r c) else a.grid.get r c := by
  induction n with
  | zero => rfl
  | succ n ih =>
    rw [applyPairs_succ]
    rcases eq_or_ne c n with rfl | hne
    · rw [applyPair_get_same, ih, if_neg (Nat.lt_irrefl c), if_pos (Nat.lt_succ_self c)]
    · rw [applyPair_get_other hne, ih]
      exact if_congr (by omega) rfl rfl

/-- Read after `apply`: the payload's value where it gives the cell one, the old value elsewhere. -/
theorem applyPayload_get (g : Grid) (r c : Nat) : (applyPayload lowerOk cfg g payload).grid.get r c =
    (cellTarget lowerOk cfg payload r c).getD (g.get r c) := by
  rw [applyPayload_eq_applyPairs, applyPairs_get]
  cases hp : pairValue lowerOk payload c with
  | none => rw [cellTarget_of_none hp, Option.getD_none, ite_self]
  | some v => rw [if_pos (lt_pairs_of_pairValue_eq_some hp)]

theorem inGrid_of_applyPayload_get_ne {g : Grid} {r c : Nat}
    (h : g.get r c ≠ (applyPayload lowerOk cfg g payload).grid.get r c) : inGrid cfg r c = true := by
  by_contra hin
  rw [applyPayload_get, cellTarget, if_neg fun h => hin h.2] at h
  exact h rfl

end

/-- Bit index `b` counts from the most significant bit. -/
theorem bitval_eq_and_shiftLeft (v : Byte) (b : Nat) : bitval v b = decide (v &&& (1#8 <<< (7 - b)) ≠ 0#8) := by
  have hone (x : Byte) : (x &&& 1#8 == 1#8) = x.getLsbD 0 := by
    rw [BitVec.and_one_eq_setWidth_ofBool_getLsbD]
    cases x.getLsbD 0 <;> rfl
  have hbit : (BitVec.twoPow 8 (7 - b)).getLsbD (7 - b) = true := by
    rw [BitVec.getLsbD_twoPow, decide_eq_true (by omega), decide_eq_true rfl, Bool.and_self]
  have hne : BitVec.twoPow 8 (7 - b) ≠ 0#8 := fun h0 => by simp [h0] at hbit
  rw [bitval, hone, BitVec.getLsbD_ushiftRight, ← BitVec.twoPow_eq, BitVec.and_twoPow]
  cases hv : v.getLsbD (7 - b) <;> simp [rowsPerByte, hv, hne]

theorem exec_applyFn_eq_next {payload : List Byte} {s t : State} :
    exec (.applyFn payload) s = .next t ↔ s.live = true ∧
      { s with
        grid := (applyPayload s.par.hexLowerOk s.cfg s.grid payload).grid
        result := .applied (applyPayload s.par.hexLowerOk s.cfg s.grid payload).count
          (applyPayload s.par.hexLowerOk s.cfg s.grid payload).hexErrs } = t :=
  whenLive_eq_next

/-- Settles O43: every cell by the pair of its column. -/
theorem applyWritesExactlyItsCells : Obligations.ApplyWritesExactlyItsCells := by
  intro s payload hl
  refine ⟨_, _, _, exec_applyFn_eq_next.2 ⟨hl, rfl⟩, fun r c => ?_⟩
  rw [applyPayload_get]
  cases hp : pairValue s.par.hexLowerOk payload c with
  | none => rw [cellTarget_of_none hp]; rfl
  | some v =>
    have hin : r < rowsPerByte ∧ inGrid s.cfg r c = true ↔
        r < 8 ∧ r < s.cfg.rows.toNat ∧ c < s.cfg.columns.toNat := by
      simp [inGrid, rowsPerByte, and_comm]
    rw [cellTarget_of_some hp, bitval_eq_and_shiftLeft]
    simp only [hin]
    split_ifs <;> rfl

/-! ### The counts (42_bitmap.md R97) -/

/-- How many of the first `n` pairs are malformed (42_bitmap.md R93). -/
def malformedPairs (lowerOk : Bool) (payload : List Byte) (n : Nat) : Nat :=
  (List.range n).countP fun k => (pairValue lowerOk payload k).isNone

theorem malformedPairs_succ (lowerOk : Bool) (payload : List Byte) (n : Nat) : malformedPairs lowerOk payload (n + 1) =
    malformedPairs lowerOk payload n + if (pairValue lowerOk payload n).isNone then 1 else 0 := by
  simp [malformedPairs, List.range_succ, List.countP_singleton]

/-- How many of rows 0 to 7 of column `k` read differently in two grids. -/
def changedRows (k : Nat) (g g' : Grid) : Nat := (List.range rowsPerByte).countP fun r => g.get r k != g'.get r k

theorem changedCells_succ (n : Nat) (g g' : Grid) :
    changedCells (n + 1) g g' = changedCells n g g' + changedRows n g g' := by
  simp [changedCells, changedRows, List.range_succ]

theorem changedCells_congr {n : Nat} {g g₁ g₂ : Grid} (h : ∀ r c, c < n → g₁.get r c = g₂.get r c) :
    changedCells n g g₁ = changedCells n g g₂ := by
  refine congrArg List.sum (List.map_congr_left fun c hc => List.countP_congr fun r _ => ?_)
  rw [h r c (List.mem_range.1 hc)]

/-- Cell writes to distinct rows of a column count the rows whose value changes. -/
theorem foldl_writeCell_count (cfg : DisplayConfig) (k : Nat) (v : Byte) {rows : List Nat} (hnd : rows.Nodup)
    (a : ApplyResult) :
    (rows.foldl (fun a b => writeCell cfg k b (bitval v b) a) a).count =
      a.count + BitVec.ofNat 32 (rows.countP fun b => inGrid cfg b k && a.grid.get b k != bitval v b) := by
  induction rows generalizing a with
  | nil => simp
  | cons b rows ih =>
    obtain ⟨hb, hnd⟩ := List.nodup_cons.1 hnd
    have hothers : ∀ x ∈ rows, (writeCell cfg k b (bitval v b) a).grid.get x k = a.grid.get x k := fun x hx => by
      rw [writeCell_get, if_neg]
      rintro ⟨⟨rfl, -⟩, -⟩
      exact hb hx
    rw [List.foldl_cons, ih hnd, List.countP_congr fun x hx => by rw [hothers x hx], List.countP_cons,
      BitVec.ofNat_add, writeCell]
    split
    · simp [BitVec.add_assoc, BitVec.add_comm]
    · simp

theorem writeColumn_count (cfg : DisplayConfig) (k : Nat) (v : Byte) (a : ApplyResult) :
    (writeColumn cfg k v a).count = a.count + BitVec.ofNat 32 (changedRows k a.grid (writeColumn cfg k v a).grid) := by
  rw [changedRows, List.countP_congr (q := fun r => inGrid cfg r k && a.grid.get r k != bitval v r) fun r hr => ?_]
  · exact foldl_writeCell_count cfg k v List.nodup_range a
  · rw [writeColumn_get]
    by_cases hin : inGrid cfg r k = true <;> simp [hin, List.mem_range.1 hr]

theorem applyPair_count (cfg : DisplayConfig) (k : Nat) (a : ApplyResult) (p : Option Byte) :
    (applyPair cfg k a p).count = a.count + BitVec.ofNat 32 (changedRows k a.grid (applyPair cfg k a p).grid) := by
  cases p with
  | none => simp [applyPair, changedRows]
  | some v => exact writeColumn_count cfg k v a

section
variable {lowerOk : Bool} {cfg : DisplayConfig} {payload : List Byte} {a : ApplyResult}

theorem applyPairs_count (n : Nat) : (applyPairs lowerOk cfg payload a n).count =
    a.count + BitVec.ofNat 32 (changedCells n a.grid (applyPairs lowerOk cfg payload a n).grid) := by
  induction n with
  | zero => simp [applyPairs, changedCells]
  | succ n ih =>
    have hold (r : Nat) : (applyPairs lowerOk cfg payload a n).grid.get r n = a.grid.get r n := by
      rw [applyPairs_get, if_neg (Nat.lt_irrefl n)]
    rw [applyPairs_succ, applyPair_count, ih, changedCells_succ, BitVec.ofNat_add, BitVec.add_assoc,
      changedCells_congr fun r c hc => applyPair_get_other hc.ne]
    simp only [changedRows, hold]

theorem applyPairs_hexErrs (n : Nat) : (applyPairs lowerOk cfg payload a n).hexErrs =
    a.hexErrs + malformedPairs lowerOk payload n := by
  induction n with
  | zero => rfl
  | succ n ih =>
    rw [applyPairs_succ, malformedPairs_succ, ← Nat.add_assoc, ← ih]
    cases pairValue lowerOk payload n <;> simp [applyPair]

theorem applyPayload_count (g : Grid) : (applyPayload lowerOk cfg g payload).count =
    BitVec.ofNat 32 (changedCells (payload.length / 2) g (applyPayload lowerOk cfg g payload).grid) := by
  rw [applyPayload_eq_applyPairs, applyPairs_count, BitVec.zero_add]

theorem applyPayload_hexErrs (g : Grid) : (applyPayload lowerOk cfg g payload).hexErrs =
    malformedPairs lowerOk payload (payload.length / 2) := by
  rw [applyPayload_eq_applyPairs, applyPairs_hexErrs, Nat.zero_add]

end

theorem changedRows_le_min {rows k : Nat} {g g' : Grid} (h : ∀ r, g.get r k ≠ g'.get r k → r < rows) :
    changedRows k g g' ≤ min rows rowsPerByte := by
  have hsub : (List.range rowsPerByte).filter (fun r => g.get r k != g'.get r k) ⊆ List.range (min rows rowsPerByte) :=
    fun r hr => by
      obtain ⟨hlt, hne⟩ := List.mem_filter.1 hr
      exact List.mem_range.2 (lt_min (h r (bne_iff_ne.1 hne)) (List.mem_range.1 hlt))
  simpa [changedRows, List.countP_eq_length_filter] using ((List.nodup_range.filter _).subperm hsub).length_le

/-- Cells that change only inside an area are at most as many as the area has. -/
theorem changedCells_le {rows columns : Nat} {g g' : Grid}
    (h : ∀ r c, g.get r c ≠ g'.get r c → r < rows ∧ c < columns) (n : Nat) :
    changedCells n g g' ≤ min rows rowsPerByte * min columns n := by
  induction n with
  | zero => simp [changedCells]
  | succ n ih =>
    rw [changedCells_succ]
    by_cases hn : n < columns
    · have hmin : min columns (n + 1) = min columns n + 1 := by omega
      rw [hmin, Nat.mul_succ]
      exact Nat.add_le_add ih (changedRows_le_min fun r hr => (h r n hr).1)
    · have hcol : changedRows n g g' = 0 := List.countP_eq_zero.2 fun r _ hr => hn (h r n (bne_iff_ne.1 hr)).2
      have hmin : min columns (n + 1) = min columns n := by omega
      rwa [hcol, hmin]

/-- Settles O44: the fold counts what each pair changes, and only cells of the display change. -/
theorem applyCountsChangedCells : Obligations.ApplyCountsChangedCells := by
  intro s t payload h
  obtain ⟨-, rfl⟩ := exec_applyFn_eq_next.1 h
  refine ⟨?_, changedCells_le (fun r c hne => ?_) _⟩
  · rw [← applyPayload_count, ← malformedPairs, ← applyPayload_hexErrs]
  · exact (of_decide_eq_true (inGrid_of_applyPayload_get_ne hne)).symm

/-! ### The same payload again (42_bitmap.md R96) -/

/-- A column the grid already holds is not written. -/
theorem writeColumn_of_held {cfg : DisplayConfig} {k : Nat} {v : Byte} {a : ApplyResult}
    (h : ∀ r, r < rowsPerByte → inGrid cfg r k = true → a.grid.get r k = bitval v r) : writeColumn cfg k v a = a :=
  writeColumn_keeps (R := fun x => x = a) (fun b x hb hx => by
    subst hx
    rw [writeCell, if_neg]
    simpa using h b hb) a rfl

section
variable {lowerOk : Bool} {cfg : DisplayConfig} {payload : List Byte}

/-- A grid that holds every value of the payload is left as it is, and nothing is counted but malformed pairs. -/
theorem applyPairs_of_held {a : ApplyResult}
    (h : ∀ r c b, cellTarget lowerOk cfg payload r c = some b → a.grid.get r c = b) (n : Nat) :
    applyPairs lowerOk cfg payload a n = { a with hexErrs := a.hexErrs + malformedPairs lowerOk payload n } := by
  induction n with
  | zero => rfl
  | succ n ih =>
    rw [applyPairs_succ, ih, malformedPairs_succ]
    cases hp : pairValue lowerOk payload n with
    | none => rfl
    | some v => exact writeColumn_of_held fun r hr hin => h r n _ (by rw [cellTarget_of_some hp, if_pos ⟨hr, hin⟩])

theorem applyPayload_applyPayload (g : Grid) :
    applyPayload lowerOk cfg (applyPayload lowerOk cfg g payload).grid payload =
      { applyPayload lowerOk cfg g payload with count := 0#32 } := by
  rw [applyPayload_eq_applyPairs, applyPairs_of_held fun r c b hb => by rw [applyPayload_get, hb, Option.getD_some],
    Nat.zero_add, ← applyPayload_hexErrs]

end

/-- Settles O45: after `apply` the grid holds every value of the payload. -/
theorem applyIsIdempotent : Obligations.ApplyIsIdempotent := by
  intro s t payload h
  obtain ⟨hl, rfl⟩ := exec_applyFn_eq_next.1 h
  refine ⟨_, _, rfl, exec_applyFn_eq_next.2 ⟨hl, ?_⟩⟩
  simp only [applyPayload_applyPayload]

/-! ### Rows 8 and up (42_bitmap.md R98) -/

section
variable {r : Nat} (c : Nat) (hr : rowsPerByte ≤ r)
include hr

theorem applyPayload_get_of_rowsPerByte_le (lowerOk : Bool) (cfg : DisplayConfig) (g : Grid) (payload : List Byte) :
    (applyPayload lowerOk cfg g payload).grid.get r c = g.get r c := by
  rw [applyPayload_get, cellTarget_of_rowsPerByte_le c hr, Option.getD_none]

theorem applyHead_get_of_rowsPerByte_le (s : State) : (applyHead s).grid.get r c = s.grid.get r c := by
  cases hq : s.queue with
  | nil => rw [applyHead_nil hq]
  | cons u us => rw [applyHead_cons hq, applyUpdate_grid, applyPayload_get_of_rowsPerByte_le c hr]

theorem dispatchFrame_get_of_rowsPerByte_le (s : State) (f : List Byte) :
    (dispatchFrame s f).grid.get r c = s.grid.get r c := by
  unfold dispatchFrame dispatchOutcome
  split
  · rw [applyUpdate_grid, applyPayload_get_of_rowsPerByte_le c hr, emitEvent_grid]
  · rw [emitEvent_grid]

theorem dispatch_get_of_rowsPerByte_le (chunk : List Byte) (s : State) :
    (dispatch chunk s).grid.get r c = s.grid.get r c :=
  dispatchFrames_keep (R := fun t => t.grid.get r c = s.grid.get r c)
    (fun t f ht => (dispatchFrame_get_of_rowsPerByte_le c hr t f).trans ht) _ _ rfl

theorem exec_get_of_rowsPerByte_le {i : Instr} {s t : State} (h : exec i s = .next t) (hi : isInit i = false) :
    t.grid.get r c = s.grid.get r c := by
  cases effect_of_exec h with
  | init => cases hi
  | applyQ => exact applyHead_get_of_rowsPerByte_le c hr s
  | apply payload => exact applyPayload_get_of_rowsPerByte_le c hr _ _ _ payload
  | dispatch chunk => exact dispatch_get_of_rowsPerByte_le c hr chunk s
  | bytes | value | event | snapshot | enq | feed | step => simp

end

/-- Settles O46: INIT gives a fresh grid, no other operation writes rows 8 and up. -/
theorem rowsFromEightNeverChange : Obligations.RowsFromEightNeverChange := by
  intro s t i r c h hr
  split
  · next hi =>
    obtain ⟨rows, columns, address, rfl⟩ := (isInit_iff i).1 hi
    obtain ⟨-, rfl⟩ := execInit_eq_next.1 h
    exact Grid.get_fresh r c
  · next hi => exact exec_get_of_rowsPerByte_le c hr h (Bool.eq_false_of_not_eq_true hi)

end Sys2Proof.Machine
end

section
/-! Proofs about the single steps of 43_dispatcher.md (R100 to R103, R106 to R108) and the bytes RX takes or leaves on
offer. -/

namespace Sys2Proof.Machine

/-! ### One byte at RX (43_dispatcher.md R101, R112) -/

/-- The arrival of one byte at a ready receiver is RXBYTE of it, whichever operation brings it. -/
theorem exec_of_one_byte {s : State} {i : Instr} {b : Byte} (hl : s.live = true) (hr : rxReady s = true)
    (hw : wireBytes i = [b]) : exec i s = .next (rxTake b s) := by
  rw [exec_of_wireBytes hl (by simp [hw]), hw, rxBytes_one_ready b hr]

/-- Settles O23, by what the detector makes of the byte: a buffer or a frame. -/
theorem takenByteFollowsDetectorAndDecoder : Obligations.TakenByteFollowsDetectorAndDecoder := by
  intro s i b hl hnone hfault hw
  rw [exec_of_one_byte hl ((rxReady_iff s).2 ⟨hnone, hfault⟩) hw]
  refine ⟨fun p hstep => ?_, fun p fr hstep => ?_⟩
  · simp only [rxTake, hstep]
    rfl
  · simp only [rxTake, hstep]
    exact congrArg _ (takeFrame_of_not_held fr hnone)

/-- Settles O27: a receiver that is not ready takes no byte. -/
theorem refusedBytesStayOnOffer : Obligations.RefusedBytesStayOnOffer := by
  intro s i hl hw hheld
  rw [exec_of_wireBytes hl hw, rxBytes_of_not_ready hw ((rxReady_eq_false s).2 hheld), offerAgain]

/-- In a quiescent state no internal agent has a step (43_dispatcher.md R110). -/
theorem internalStep_of_quiescent {s : State} (h : Quiescent s) : internalStep s = s := by
  obtain ⟨hnone, hempty⟩ := h
  simp [internalStep, enqEnabled, applyEnabled, hnone, hempty]

/-- Settles O2: a blocked reception leaves the step to the internal agents. -/
theorem blockedScriptWaitsForInternalAgents : Obligations.BlockedScriptWaitsForInternalAgents := by
  intro s i rest hl hdecode hw hnotReady
  have hblocked : rxBlocked i s = true := by simp [rxBlocked, hl, hw, hnotReady]
  exact ⟨step_of_blocked hdecode hblocked, internalStep_stim s, internalStep_pending s, internalStep_evt s,
    internalStep_fault s, fun _ hnone hempty => internalStep_of_quiescent ⟨hnone, hempty⟩⟩

/-! ### A whole frame at RX -/

/-- Bytes without end marker lengthen a body as they stand. -/
theorem rxBytes_body {s : State} (hr : rxReady s = true) {body more : List Byte} (bs : List Byte)
    (hb : ETX ∉ body ++ more) (hroom : exceedsCap s.par.pendingCap (body.length + more.length + 1) = false) :
    rxBytes (more ++ bs) { s with pending := STX :: body } =
      rxBytes bs { s with pending := STX :: (body ++ more) } := by
  induction more generalizing body with
  | nil => simp
  | cons b more ih =>
    have hbody : ETX ∉ body := fun h => hb (List.mem_append_left _ h)
    have hfirst : exceedsCap s.par.pendingCap (body.length + 2) = false :=
      exceedsCap_mono (by simp) hroom
    rw [List.cons_append, rxBytes_cons_body hr b _ hbody hfirst,
      ih (by simpa using hb) (exceedsCap_mono (by simp; omega) hroom)]
    simp

/-- A whole frame at a ready and empty receiver: the start marker opens a body, the body follows, the end marker and the
first character are a pair inside it, and the second character completes the frame. -/
theorem rxBytes_frame {s : State} {body : List Byte} (h l : Byte) (hr : rxReady s = true) (hp : s.pending = [])
    (hb : ETX ∉ body) (hroom : exceedsCap s.par.pendingCap (body.length + 3) = false) :
    rxBytes (STX :: (body ++ [ETX, h, l])) s = takeFrame (STX :: (body ++ [ETX, h, l])) s := by
  have hroomAt {n : Nat} (hn : n ≤ body.length + 3) : exceedsCap s.par.pendingCap n = false := exceedsCap_mono hn hroom
  calc rxBytes (STX :: (body ++ [ETX, h, l])) s
    _ = rxBytes (STX :: (body ++ [ETX, h, l])) { s with pending := [] } := by rw [setPending_self hp]
    _ = rxBytes (body ++ [ETX, h, l]) { s with pending := [STX] } :=
      rxBytes_cons_kept hr _ stepByte_start (hroomAt (by simp))
    _ = rxBytes [ETX, h, l] { s with pending := STX :: body } :=
      rxBytes_body hr (body := []) _ hb (hroomAt (by simp))
    _ = rxBytes [l] { s with pending := STX :: (body ++ [ETX, h]) } := rxBytes_pair hr ETX h [l] hb hroom
    _ = takeFrame (STX :: (body ++ [ETX, h, l])) s :=
      (rxBytes_last h l hr hb).trans (takeFrame_of_not_held _ ((rxReady_iff s).1 hr).1).symm

/-- Bytes put back on offer show in the script. -/
theorem offerAgain_stim_eq_iff {bs : List Byte} {s : State} : (offerAgain bs s).stim = s.stim ↔ bs = [] := by
  rw [offerAgain_stim, List.append_left_eq_self]
  cases bs <;> simp [encode]

/-- Bytes that all leave the script where it was have all been taken, each as an RXBYTE. -/
theorem execAll_rxBytes {bs : List Byte} {s : State} (hl : s.live = true) (h : (rxBytes bs s).stim = s.stim) :
    execAll (bs.map .rxByte) s = .next (rxBytes bs s) := by
  obtain ⟨taken, rest, t, rfl, hall, hstim, -, hbytes⟩ := rxBytes_split bs hl
  rw [hbytes, ← hstim, offerAgain_stim_eq_iff] at h
  subst h
  rw [List.append_nil] at hbytes ⊢
  rw [hall, hbytes]
  rfl

/-- Settles O33: the frame is taken to its last byte, so its bytes are a run of RXBYTEs. -/
theorem wholeFrameIsTakenByteByByte : Obligations.WholeFrameIsTakenByteByByte := by
  intro s body h l r hl hnone hfault hp hb hroom hdecode
  have hframe := rxBytes_frame h l ((rxReady_iff s).2 ⟨hnone, hfault⟩) hp hb hroom
  have htake := takeFrame_of_not_held (STX :: (body ++ [ETX, h, l])) hnone
  rw [hdecode] at htake
  rw [execAll_rxBytes hl (by rw [hframe, takeFrame_stim]), hframe]
  exact congrArg _ (htake.trans (by cases r <;> simp [hp]))

/-! ### INIT, ENQ and APPLYQ (43_dispatcher.md R100, R102, R103) -/

/-- Settles O34: INIT asks only for its dimensions. -/
theorem initResetsEverything : Obligations.InitResetsEverything := by
  intro s rows columns address
  refine ⟨fun hr hc => execInit_eq_next.2 ⟨⟨?_, ?_⟩, rfl⟩, fun hzero =>
    if_pos (hzero.imp BitVec.eq_of_toNat_eq BitVec.eq_of_toNat_eq)⟩
  · rintro rfl
    exact absurd hr (by decide)
  · rintro rfl
    exact absurd hc (by decide)

/-- Settles O36: a held update and room in the queue enable ENQ. -/
theorem enqMovesTheHeldUpdate : Obligations.EnqMovesTheHeldUpdate := fun _ _ hl hheld hroom =>
  (whenLive_of_live _ hl).trans (congrArg _ (enqueue_some hheld hroom))

/-- Settles O37: neither agent is enabled. -/
theorem disabledStepsWait : Obligations.DisabledStepsWait := by
  refine fun s hl => ⟨fun hdisabled => (whenLive_of_live _ hl).trans (congrArg _ (enqueue_waits ?_)), fun hempty =>
    (whenLive_of_live _ hl).trans (congrArg _ (applyHead_nil hempty))⟩
  rcases hdisabled with hnone | hfull
  · simp [enqEnabled, hnone]
  · simp [enqEnabled, hfull]

/-- A count of malformed pairs that fits 32 bits goes out as it is (10_state.md R22). -/
theorem hexErrs32_toNat (draw : Nat) {n : Nat} (h : n < 2 ^ 32) : (hexErrs32 draw n).toNat = n := by
  rw [hexErrs32, if_pos h, BitVec.toNat_ofNat, Nat.mod_eq_of_lt h]

/-- Settles O38: the notification's 32 bits hold the count of malformed pairs where it fits. -/
theorem applyqAppliesTheHead : Obligations.ApplyqAppliesTheHead := fun s _ _ hl hq =>
  ⟨hexErrs32 s.draws _, hexErrs32_toNat s.draws, (whenLive_of_live _ hl).trans (congrArg _ (applyHead_cons hq))⟩

/-! ### SNAPSHOT, SNAPRD and RDCOUNT (43_dispatcher.md R106 to R108) -/

/-- Settles O39: the copy is the grid. -/
theorem snapshotCopiesTheGrid : Obligations.SnapshotCopiesTheGrid := fun _ hl =>
  ⟨whenLive_of_live _ hl, whenLive_of_live _ hl⟩

theorem inGrid_iff {cfg : DisplayConfig} {r c : Nat} :
    inGrid cfg r c = true ↔ c < cfg.columns.toNat ∧ r < cfg.rows.toNat := by simp [inGrid]

/-- Settles O40, by whether there is a snapshot and whether the cell lies in the grid. -/
theorem snaprdReadsTheShadow : Obligations.SnaprdReadsTheShadow := by
  intro s r c hl
  refine ⟨fun g hsnap hr hc => execSnapRd_eq_next.2 ⟨hl, g, hsnap, inGrid_iff.2 ⟨hc, hr⟩, rfl⟩, fun g hsnap hout => ?_,
    fun hsnap => ?_⟩
  · have hoff : ¬ inGrid s.cfg r.toNat c.toNat = true := by rw [inGrid_iff]; omega
    simp [exec, execSnapRd, hl, hsnap, hoff]
  · simp [exec, execSnapRd, hl, hsnap]

/-! ### The published count (43_dispatcher.md R108) -/

theorem CountPublished.dispatchFrame {s : State} (h : CountPublished s) (f : List Byte) :
    CountPublished (dispatchFrame s f) := by
  unfold Machine.dispatchFrame dispatchOutcome
  split
  · exact countPublished_applyUpdate _ _
  · exact h

theorem CountPublished.internalStep {s : State} (h : CountPublished s) : CountPublished (internalStep s) := by
  unfold Machine.internalStep
  split
  · exact h.of_eq (enqueue_updatedCount s) (enqueue_note s)
  · split
    · exact h.applyHead
    · exact h

/-- Every operation of the table keeps `UPDATED_COUNT` the count of the last notification. -/
theorem CountPublished.exec {i : Instr} {s t : State} (h : CountPublished s) (he : exec i s = .next t) :
    CountPublished t := by
  cases effect_of_exec he with
  | bytes => exact h.of_eq (rxBytes_updatedCount _ s) (rxBytes_note _ s)
  | init => rfl
  | enq => exact h.of_eq (enqueue_updatedCount s) (enqueue_note s)
  | applyQ => exact h.applyHead
  | dispatch chunk => exact dispatchFrames_keep (fun _ f h => h.dispatchFrame f) _ _ h
  | value | event | snapshot | feed | step | apply => exact h

theorem exec_rdCount {s : State} (hl : s.live = true) :
    Machine.exec .rdCount s = .next { s with result := .count s.updatedCount } := whenLive_of_live _ hl

/-- Settles O41: what RDCOUNT returns, and the invariant along operations, steps, INIT and APPLYQ. -/
theorem rdcountReturnsTheLastCount : Obligations.RdcountReturnsTheLastCount := by
  refine ⟨fun s => exec_rdCount, fun s hl h => ?_, fun s t i h => h.exec, fun s t h hstep => ?_, fun s t i hi he => ?_,
    fun s t u rest hq he => ?_⟩
  · rw [exec_rdCount hl, h]
  · rcases step_cases hstep with rfl | ⟨i, rest, -, he⟩
    · exact h.internalStep
    · exact CountPublished.exec (s := { s with stim := rest }) h he
  · obtain ⟨rows, columns, address, rfl⟩ := (isInit_iff i).1 hi
    obtain ⟨-, rfl⟩ := execInit_eq_next.1 he
    exact ⟨rfl, rfl, rfl⟩
  · obtain ⟨hl, rfl⟩ := whenLive_eq_next.1 he
    rw [applyHead_cons hq]
    exact ⟨_, exec_rdCount hl, by simp⟩

end Sys2Proof.Machine
end

section
/-! Proofs about the internal agents (43_dispatcher.md R110, R113): with nothing else to do they come to rest. -/

namespace Sys2Proof.Machine

/-- What is left to do: one step for each update in the queue, two for a held one. -/
def work (s : State) : Nat := s.queue.length + 2 * s.handover.toList.length

theorem work_eq_zero_iff (s : State) : work s = 0 ↔ Quiescent s := by
  simp [work, Quiescent, and_comm]

/-- The internal agents' step with a legal `QUEUE_CAP`: ENQ, else APPLYQ, else both agents are at rest. -/
theorem internalStep_cases {s : State} (hcap : 1 ≤ s.par.queueCap) :
    (∃ u, s.handover = some u ∧ internalStep s = { s with queue := s.queue ++ [u], handover := none }) ∨
      (∃ u rest, s.queue = u :: rest ∧ internalStep s = applyUpdate u { s with queue := rest }) ∨ Quiescent s := by
  unfold internalStep
  split
  · next henq =>
    obtain ⟨hheld, hroom⟩ : s.handover.isSome = true ∧ s.queue.length < s.par.queueCap := by
      simpa [enqEnabled] using henq
    obtain ⟨u, hu⟩ := Option.isSome_iff_exists.1 hheld
    exact .inl ⟨u, hu, enqueue_some hu hroom⟩
  · next henq =>
    right
    cases hq : s.queue with
    | cons u rest => exact .inl ⟨u, rest, rfl, by rw [if_pos (by simp [applyEnabled, hq]), applyHead_cons hq]⟩
    | nil =>
      have hnone : s.handover = none := by simpa [enqEnabled, hq, Nat.lt_of_lt_of_le Nat.zero_lt_one hcap] using henq
      exact .inr ⟨hnone, hq⟩

/-- As many steps as there is work bring HFR to rest, and every waiting update is notified. -/
theorem run_drains (k : Nat) {s : State} (hl : s.live = true) (hstim : s.stim = []) (hcap : 1 ≤ s.par.queueCap)
    (hk : work s ≤ k) :
    ∃ t, Host.Core.run Sys2Proof.core k s = .next t ∧ Quiescent t ∧
      t.note.length = s.note.length + s.queue.length + s.handover.toList.length ∧ t.evt = s.evt ∧
      t.pending = s.pending := by
  induction k generalizing s with
  | zero =>
    obtain ⟨hnone, hempty⟩ := (work_eq_zero_iff s).1 (Nat.le_zero.1 hk)
    exact ⟨s, rfl, ⟨hnone, hempty⟩, by simp [hnone, hempty], rfl, rfl⟩
  | succ k ih =>
    rw [core_run_succ (step_of_empty hstim hl)]
    rcases internalStep_cases hcap with ⟨u, hheld, hstep⟩ | ⟨u, rest, hq, hstep⟩ | hquiet
    · obtain ⟨t, hrun, hquiet, hnote, hrest⟩ := ih (s := { s with queue := s.queue ++ [u], handover := none })
        hl hstim hcap (by simp [work, hheld] at hk ⊢; omega)
      exact ⟨t, by rw [hstep, hrun], hquiet, by simp [hnote, hheld, Nat.add_assoc], hrest⟩
    · obtain ⟨t, hrun, hquiet, hnote, hrest⟩ := ih (s := applyUpdate u { s with queue := rest })
        hl hstim hcap (by simp [work, hq] at hk ⊢; omega)
      exact ⟨t, by rw [hstep, hrun], hquiet, by simp [hnote, hq]; omega, hrest⟩
    · rw [internalStep_of_quiescent hquiet]
      exact ih hl hstim hcap ((work_eq_zero_iff s).2 hquiet ▸ Nat.zero_le k)

/-- Settles O55: a held update is two steps of work. -/
theorem internalAgentsDrainTheQueue : Obligations.InternalAgentsDrainTheQueue := by
  intro s hl hstim hcap
  have hwork : work s ≤ s.queue.length + 2 := by
    unfold work
    cases s.handover <;> simp
  exact run_drains _ hl hstim hcap hwork

end Sys2Proof.Machine
end

section
/-! Proofs about the reference machine (43_dispatcher.md R104, R105): its events are its frames', and what else it writes is
its accepted updates', applied one after the other. -/

namespace Sys2Proof.Machine

/-! ### Updates applied one after the other -/

/-- Updates applied and notified in order. -/
def applyEach (us : List PixelUpdate) (s : State) : State := us.foldl (fun t u => applyUpdate u t) s

theorem applyEach_append (us vs : List PixelUpdate) (s : State) :
    applyEach (us ++ vs) s = applyEach vs (applyEach us s) := List.foldl_append

/-- The state with what the stream's frames leave apart from their updates: the buffer and the events. -/
def setStream (p : List Byte) (es : List Event) (s : State) : State := { s with pending := p, evt := es }

@[simp] theorem setStream_setStream (p p' : List Byte) (es es' : List Event) (s : State) :
    setStream p es (setStream p' es' s) = setStream p es s := rfl

/-- Applying updates neither reads nor writes `P` and `EVT`. -/
@[simp] theorem applyEach_setStream (us : List PixelUpdate) (p : List Byte) (es : List Event) (s : State) :
    applyEach us (setStream p es s) = setStream p es (applyEach us s) := by
  induction us generalizing s with
  | nil => rfl
  | cons u us ih => exact ih (applyUpdate u s)

theorem applyEach_grid (us : List PixelUpdate) (s : State) : (applyEach us s).grid =
    us.foldl (fun g u => (applyPayload s.par.hexLowerOk s.cfg g u.bits).grid) s.grid := by
  induction us generalizing s with
  | nil => rfl
  | cons u us ih => exact ih (applyUpdate u s)

/-- A notification carries the count and the malformed pairs of its `apply`, these where they fit 32 bits. -/
def Notifies (a : ApplyResult) (n : Notification) : Prop :=
  n.count = a.count ∧ (a.hexErrs < 2 ^ 32 → n.hexErrs.toNat = a.hexErrs)

theorem notifies_hexErrs32 (draw : Nat) (a : ApplyResult) :
    Notifies a { count := a.count, hexErrs := hexErrs32 draw a.hexErrs } := ⟨rfl, hexErrs32_toNat draw⟩

/-- What updates applied in order leave: the last grid, the last count, and one notification each. -/
theorem applyEach_eq (us : List PixelUpdate) (s : State) :
    ∃ ns, List.Forall₂ Notifies (applyAll s.par.hexLowerOk s.cfg s.grid us) ns ∧
      applyEach us s = { s with
        grid := ((applyAll s.par.hexLowerOk s.cfg s.grid us).getLast?.map ApplyResult.grid).getD s.grid
        updatedCount := ((applyAll s.par.hexLowerOk s.cfg s.grid us).getLast?.map ApplyResult.count).getD s.updatedCount
        note := s.note ++ ns
        draws := s.draws + us.length } := by
  induction us generalizing s with
  | nil => exact ⟨[], .nil, by simp [applyEach]⟩
  | cons u us ih =>
    obtain ⟨ns, hns, heq⟩ := ih (applyUpdate u s)
    refine ⟨_ :: ns, .cons (notifies_hexErrs32 s.draws _) hns, ?_⟩
    rw [applyEach, List.foldl_cons, ← applyEach, heq]
    simp [applyUpdate, List.getLast?_cons, Nat.add_assoc, Nat.add_comm 1]

section
variable (us : List PixelUpdate) (s : State)

@[simp] theorem applyEach_par : (applyEach us s).par = s.par := by
  obtain ⟨ns, -, h⟩ := applyEach_eq us s
  rw [h]
@[simp] theorem applyEach_cfg : (applyEach us s).cfg = s.cfg := by
  obtain ⟨ns, -, h⟩ := applyEach_eq us s
  rw [h]
@[simp] theorem applyEach_live : (applyEach us s).live = s.live := by
  obtain ⟨ns, -, h⟩ := applyEach_eq us s
  rw [h]

theorem applyEach_note_length : (applyEach us s).note.length = s.note.length + us.length := by
  obtain ⟨ns, hns, h⟩ := applyEach_eq us s
  simp [h, ← hns.length_eq]

end

/-! ### The frames of a chunk -/

/-- The update of an outcome, if the frame is accepted. -/
def accepted : DecodeOutcome → Option PixelUpdate
  | .ok u => some u
  | _ => none

/-- The events of frames, in order (43_dispatcher.md R105). -/
def eventsOf (lowerOk : Bool) (cfg : DisplayConfig) (fs : List (List Byte)) : List Event :=
  fs.map fun f => eventOf (decodeFrame lowerOk cfg f)

section
variable (lowerOk : Bool) (cfg : DisplayConfig) (f : List Byte) (fs gs : List (List Byte))

theorem eventsOf_append : eventsOf lowerOk cfg (fs ++ gs) = eventsOf lowerOk cfg fs ++ eventsOf lowerOk cfg gs :=
  List.map_append

theorem acceptedUpdates_append :
    acceptedUpdates lowerOk cfg (fs ++ gs) = acceptedUpdates lowerOk cfg fs ++ acceptedUpdates lowerOk cfg gs :=
  List.filterMap_append

theorem acceptedUpdates_singleton :
    acceptedUpdates lowerOk cfg [f] = (accepted (decodeFrame lowerOk cfg f)).toList := by
  unfold acceptedUpdates
  cases h : decodeFrame lowerOk cfg f <;> simp [accepted, h]

theorem acceptedUpdates_cons : acceptedUpdates lowerOk cfg (f :: fs) =
    (accepted (decodeFrame lowerOk cfg f)).toList ++ acceptedUpdates lowerOk cfg fs := by
  rw [← List.singleton_append, acceptedUpdates_append, acceptedUpdates_singleton]

end

/-- A frame in the reference machine: its event, and its update applied if there is one. -/
theorem dispatchFrame_eq (s : State) (f : List Byte) : dispatchFrame s f =
    setStream s.pending (s.evt ++ [eventOf (decodeFrame s.par.hexLowerOk s.cfg f)])
      (applyEach (accepted (decodeFrame s.par.hexLowerOk s.cfg f)).toList s) := by
  unfold dispatchFrame
  cases decodeFrame s.par.hexLowerOk s.cfg f <;> rfl

/-- Frames in the reference machine: their events, and the accepted updates applied. -/
theorem dispatchFrames_eq (fs : List (List Byte)) (s : State) : fs.foldl dispatchFrame s =
    setStream s.pending (s.evt ++ eventsOf s.par.hexLowerOk s.cfg fs)
      (applyEach (acceptedUpdates s.par.hexLowerOk s.cfg fs) s) := by
  induction fs generalizing s with
  | nil => simp [acceptedUpdates, eventsOf, applyEach, setStream]
  | cons f fs ih =>
    rw [List.foldl_cons, ih, dispatchFrame_par, dispatchFrame_cfg, dispatchFrame_eq, applyEach_setStream,
      setStream_setStream, acceptedUpdates_cons, applyEach_append]
    simp [setStream, eventsOf]

/-- `DISPATCH` (43_dispatcher.md R104): the buffer, the events of the frames, and the accepted updates applied. -/
theorem dispatch_eq_setStream (chunk : List Byte) (s : State) : dispatch chunk s =
    setStream (feed s.pending chunk).1 (s.evt ++ eventsOf s.par.hexLowerOk s.cfg (feed s.pending chunk).2)
      (applyEach (acceptedUpdates s.par.hexLowerOk s.cfg (feed s.pending chunk).2) s) := by
  have hframes := dispatchFrames_eq (feed s.pending chunk).2 (setStream (feed s.pending chunk).1 s.evt s)
  rw [applyEach_setStream, setStream_setStream] at hframes
  exact hframes

theorem exec_dispatchFn {s : State} (chunk : List Byte) (hl : s.live = true) :
    exec (.dispatchFn chunk) s = .next (dispatch chunk s) := whenLive_of_live _ hl

/-- Settles O48: the accepted updates' results, grid, count and notifications. -/
theorem dispatchRunsItsFramesInOrder : Obligations.DispatchRunsItsFramesInOrder := by
  intro s chunk p fs results hl hfeed hresults
  obtain ⟨ns, hns, heq⟩ := applyEach_eq (acceptedUpdates s.par.hexLowerOk s.cfg fs) s
  rw [hresults] at hns heq
  refine ⟨_, ns, exec_dispatchFn chunk hl, ?_, by rw [← hresults, applyAll_length], hns⟩
  rw [dispatch_eq_setStream, hfeed, heq]
  rfl

/-- The frames of two chunks are the frames of both together (40_reassembler.md R72). -/
theorem dispatch_append {s : State} (c1 c2 : List Byte) (hp : atRest s.pending = true) :
    dispatch (c1 ++ c2) s = dispatch c2 (dispatch c1 s) := by
  rw [dispatch_eq_setStream c2, dispatch_pending, dispatch_par, dispatch_cfg, dispatch_eq_setStream c1,
    applyEach_setStream, setStream_setStream, dispatch_eq_setStream (c1 ++ c2), feed_append c1 c2 hp,
    acceptedUpdates_append, applyEach_append, eventsOf_append, ← List.append_assoc]
  rfl

/-- Settles O49: the first `DISPATCH` leaves the buffer the second goes on from. -/
theorem dispatchIgnoresChunkBoundaries : Obligations.DispatchIgnoresChunkBoundaries := by
  intro s c1 c2 hl hp
  refine ⟨_, _, exec_dispatchFn c1 hl, exec_dispatchFn c2 (by rwa [dispatch_live]), ?_⟩
  rw [exec_dispatchFn _ hl, dispatch_append c1 c2 hp]

end Sys2Proof.Machine
end

section
/-! Proofs about pipelined runs (43_dispatcher.md R109 to R111): what a run has come to, told by the reference machine. -/

namespace Sys2Proof.Machine

/-! ### Operations over a run -/

theorem isPipelineStep_iff (i : Instr) : isPipelineStep i = true ↔
    (∃ b, i = .rxByte b) ∨ i = .enq ∨ i = .applyQ ∨ i = .snapshot ∨ (∃ r c, i = .snapRd r c) ∨ i = .rdCount := by
  cases i <;> simp [isPipelineStep, opKind]

theorem isInit_of_isPipelineStep {i : Instr} (h : isPipelineStep i = true) : isInit i = false := by
  cases hk : opKind i <;> simp [isPipelineStep, hk] at h <;> simp [isInit, hk]

/-- No operation takes bytes off the script: a reception puts back what it does not take. -/
theorem exec_stim_suffix {i : Instr} {s t : State} (h : exec i s = .next t) : s.stim <:+ t.stim := by
  cases effect_of_exec h with
  | bytes =>
    exact rxBytes_keeps (R := fun t => s.stim <:+ t.stim) (fun b t ht _ => (rxTake_stim b t).symm ▸ ht)
      (fun _ _ ht => ht.trans (List.suffix_append _ _)) _ s List.suffix_rfl
  | value | event | init | snapshot | enq | applyQ | feed | step | apply | dispatch => simp

theorem execAll_cons_eq_next {i : Instr} {is : List Instr} {s t : State} :
    execAll (i :: is) s = .next t ↔ ∃ m, exec i s = .next m ∧ execAll is m = .next t := by
  rw [execAll]
  cases exec i s <;> simp

/-- A property of states that every operation of a schedule keeps is kept by its run. -/
theorem execAll_keeps {R : State → Prop} {schedule : List Instr} {s t : State}
    (hR : ∀ i ∈ schedule, ∀ s t, exec i s = .next t → R s → R t) (h : execAll schedule s = .next t) (hs : R s) :
    R t := by
  induction schedule generalizing s with
  | nil => cases h; exact hs
  | cons i is ih =>
    obtain ⟨m, hi, his⟩ := execAll_cons_eq_next.1 h
    exact ih (fun j hj => hR j (List.mem_cons_of_mem _ hj)) his (hR i List.mem_cons_self s m hi hs)

theorem execAll_stim_suffix {schedule : List Instr} {s t : State} (h : execAll schedule s = .next t) :
    s.stim <:+ t.stim :=
  execAll_keeps (R := fun t => s.stim <:+ t.stim) (fun _ _ _ _ he hs => hs.trans (exec_stim_suffix he)) h List.suffix_rfl

/-- Without an INIT an overflow stays to the end of the run (10_state.md R21). -/
theorem execAll_overflow {schedule : List Instr} {s t : State} (hinit : ∀ i ∈ schedule, isInit i = false)
    (h : execAll schedule s = .next t) (hs : s.fault.rxOverflow = true) : t.fault.rxOverflow = true :=
  execAll_keeps (R := fun t => t.fault.rxOverflow = true)
    (fun i hi s t he hs => (overflowIsStickyAndStopsRx.2.1 s t i he (hinit i hi) hs).1) h hs

/-! ### What a run has come to -/

/-- `PipelineRun s bytes t`: after `bytes` the run from `s` stands in `t`. The detector and the events are where the
reference machine has them; of the updates accepted so far, in order, the first are applied, the next stand in the queue,
and the last may be held. -/
inductive PipelineRun (s : State) (bytes : List Byte) : State → Prop where
  | mk (applied queue : List PixelUpdate) (handover : Option PixelUpdate) (snap : Option Grid) (result : Result)
      (haccepted : acceptedUpdates s.par.hexLowerOk s.cfg (feed s.pending bytes).2 =
        applied ++ queue ++ handover.toList) :
      PipelineRun s bytes { setStream (feed s.pending bytes).1
          (s.evt ++ eventsOf s.par.hexLowerOk s.cfg (feed s.pending bytes).2) (applyEach applied s) with
        handover := handover, queue := queue, snap := snap, result := result }

theorem feed_snoc {p : List Byte} (bytes : List Byte) (b : Byte) (hp : atRest p = true) :
    feed p (bytes ++ [b]) =
      ((stepByte (feed p bytes).1 b).1, (feed p bytes).2 ++ (stepByte (feed p bytes).1 b).2.toList) := by
  rw [feed_append bytes [b] hp, feed_singleton b (atRest_feed p bytes)]

/-- A frame at a receiver that holds nothing: the buffer is empty, the event is emitted, an accepted update is held. -/
theorem takeFrame_eq {s : State} (fr : List Byte) (h : s.handover = none) : takeFrame fr s =
    { setStream [] (s.evt ++ [eventOf (decodeFrame s.par.hexLowerOk s.cfg fr)]) s with
      handover := accepted (decodeFrame s.par.hexLowerOk s.cfg fr) } := by
  rw [takeFrame_of_not_held fr h]
  cases decodeFrame s.par.hexLowerOk s.cfg fr <;> rfl

namespace PipelineRun

variable {s t : State} {bytes : List Byte}

theorem start (hp : atRest s.pending = true) (hq : Quiescent s) : PipelineRun s [] s := by
  obtain ⟨hnone, hempty⟩ := hq
  have hfeed := feed_nil_of_atRest hp
  have hrun := PipelineRun.mk (s := s) (bytes := []) [] s.queue s.handover s.snap s.result
    (by rw [hfeed, hnone, hempty]; rfl)
  simpa [hfeed, eventsOf, setStream, applyEach] using hrun

theorem live (h : PipelineRun s bytes t) : t.live = s.live := by cases h; exact applyEach_live _ s
theorem par (h : PipelineRun s bytes t) : t.par = s.par := by cases h; exact applyEach_par _ s
theorem cfg (h : PipelineRun s bytes t) : t.cfg = s.cfg := by cases h; exact applyEach_cfg _ s
theorem pending (h : PipelineRun s bytes t) : t.pending = (feed s.pending bytes).1 := by cases h; rfl

/-- A byte taken without overflow: the detector goes on as in `feed`; a frame adds its event and, if accepted, is held. -/
theorem rxTake (h : PipelineRun s bytes t) (hp : atRest s.pending = true) (hr : rxReady t = true) (b : Byte)
    (hfault : (rxTake b t).fault.rxOverflow = false) : PipelineRun s (bytes ++ [b]) (rxTake b t) := by
  obtain ⟨hnone, -⟩ := (rxReady_iff t).1 hr
  have hfeed := feed_snoc bytes b hp
  have hrest : atRest t.pending = true := h.pending ▸ atRest_feed s.pending bytes
  rcases rxTake_cases b hrest with ⟨p, hstep, -, ⟨-, ht⟩ | ⟨-, ht⟩⟩ | ⟨hstep, -, ht⟩
  · rw [ht] at hfault
    cases hfault
  · rw [h.pending] at hstep
    rw [hstep, Option.toList_none, List.append_nil] at hfeed
    rw [ht]
    cases h with
    | mk applied queue handover snap result haccepted =>
      have hrun := PipelineRun.mk (bytes := bytes ++ [b]) applied queue handover snap result (by rwa [hfeed])
      rw [hfeed] at hrun
      exact hrun
  · rw [h.pending] at hstep ht
    rw [hstep, Option.toList_some] at hfeed
    rw [ht, takeFrame_eq _ hnone, h.par, h.cfg]
    cases h with
    | mk applied queue handover snap result haccepted =>
      obtain rfl : handover = none := hnone
      have hrun := PipelineRun.mk (bytes := bytes ++ [b]) applied queue (accepted _) snap result (by
        rw [hfeed, acceptedUpdates_append, haccepted, acceptedUpdates_singleton, Option.toList_none, List.append_nil])
      rw [hfeed] at hrun
      simpa [setStream, eventsOf] using hrun

theorem enqueue (h : PipelineRun s bytes t) : PipelineRun s bytes (enqueue t) := by
  rcases enqueue_cases t with he | ⟨u, hu, -, he⟩ <;> rw [he]
  · exact h
  · cases h with
    | mk applied queue handover snap result haccepted =>
      cases hu
      exact .mk applied (queue ++ [u]) none snap result (by simpa using haccepted)

theorem applyHead (h : PipelineRun s bytes t) : PipelineRun s bytes (applyHead t) := by
  cases h with
  | mk applied queue handover snap result haccepted =>
    cases queue with
    | nil => exact .mk applied [] handover snap result haccepted
    | cons u rest =>
      have hrun := PipelineRun.mk (applied ++ [u]) rest handover snap result (by simpa using haccepted)
      rwa [applyEach_append] at hrun

theorem observe (h : PipelineRun s bytes t) (snap : Option Grid) (result : Result) :
    PipelineRun s bytes { t with snap := snap, result := result } := by
  cases h with
  | mk applied queue handover _ _ haccepted => exact .mk applied queue handover snap result haccepted

/-- A pipelined step in which every byte is taken without overflow. -/
theorem exec {i : Instr} {t' : State} (h : PipelineRun s bytes t) (hp : atRest s.pending = true)
    (hi : isPipelineStep i = true) (he : exec i t = .next t') (hstim : t'.stim = t.stim)
    (hfault : t'.fault.rxOverflow = false) : PipelineRun s (bytes ++ wireBytes i) t' := by
  rcases (isPipelineStep_iff i).1 hi with ⟨b, rfl⟩ | rfl | rfl | rfl | ⟨r, c, rfl⟩ | rfl
  · obtain ⟨-, rfl⟩ := whenLive_eq_next.1 he
    cases hr : rxReady t with
    | false =>
      rw [rxBytes_cons_blocked b [] hr, offerAgain_stim_eq_iff] at hstim
      cases hstim
    | true =>
      rw [rxBytes_one_ready b hr] at hfault ⊢
      exact h.rxTake hp hr b hfault
  all_goals simp only [wireBytes, List.append_nil]
  · obtain ⟨-, rfl⟩ := whenLive_eq_next.1 he
    exact h.enqueue
  · obtain ⟨-, rfl⟩ := whenLive_eq_next.1 he
    exact h.applyHead
  · obtain ⟨-, rfl⟩ := whenLive_eq_next.1 he
    exact h.observe (some t.grid) _
  · obtain ⟨-, g, -, -, rfl⟩ := execSnapRd_eq_next.1 he
    exact h.observe t.snap _
  · obtain ⟨-, rfl⟩ := whenLive_eq_next.1 he
    exact h.observe t.snap _

/-- A schedule of pipelined steps: since no step takes bytes off the script and an overflow stays, the end of the run tells
that every byte was taken. -/
theorem execAll {schedule : List Instr} {t' : State} (h : PipelineRun s bytes t) (hp : atRest s.pending = true)
    (hsched : ∀ i ∈ schedule, isPipelineStep i = true) (he : execAll schedule t = .next t') (hstim : t'.stim = t.stim)
    (hfault : t'.fault.rxOverflow = false) : PipelineRun s (bytes ++ schedule.flatMap wireBytes) t' := by
  induction schedule generalizing bytes t with
  | nil =>
    cases he
    rwa [List.flatMap_nil, List.append_nil]
  | cons i is ih =>
    obtain ⟨m, hi, his⟩ := execAll_cons_eq_next.1 he
    have hrest : ∀ j ∈ is, isPipelineStep j = true := fun j hj => hsched j (List.mem_cons_of_mem _ hj)
    have hstimHere : m.stim = t.stim :=
      ((exec_stim_suffix hi).eq_of_length_le (hstim ▸ (execAll_stim_suffix his).length_le)).symm
    have hfaultHere : m.fault.rxOverflow = false := by
      by_contra hover
      rw [execAll_overflow (fun j hj => isInit_of_isPipelineStep (hrest j hj)) his (by simpa using hover)] at hfault
      cases hfault
    rw [List.flatMap_cons, ← List.append_assoc]
    exact ih (h.exec hp (hsched i List.mem_cons_self) hi hstimHere hfaultHere) hrest his (hstim.trans hstimHere.symm)

end PipelineRun

/-- Every schedule from a quiescent state in which all bytes are taken without overflow comes to where the reference
machine's updates are applied up to those still waiting. -/
theorem pipelineRun_of_execAll {s t : State} {schedule : List Instr} (hp : atRest s.pending = true) (hq : Quiescent s)
    (hsched : ∀ i ∈ schedule, isPipelineStep i = true) (he : execAll schedule s = .next t) (hstim : t.stim = s.stim)
    (hfault : t.fault.rxOverflow = false) : PipelineRun s (schedule.flatMap wireBytes) t :=
  (PipelineRun.start hp hq).execAll hp hsched he hstim hfault

/-- Settles O50: where the run is quiescent again, every accepted update has been applied. -/
theorem pipelineAgreesWithDispatch : Obligations.PipelineAgreesWithDispatch := by
  intro s t schedule hl hp hq hsched he hstim hfault hquiet
  refine ⟨_, exec_dispatchFn _ hl, ?_⟩
  rw [dispatch_eq_setStream]
  cases pipelineRun_of_execAll hp hq hsched he hstim hfault with
  | mk applied queue handover snap result haccepted =>
    obtain ⟨rfl, rfl⟩ : handover = none ∧ queue = [] := hquiet
    rw [haccepted, Option.toList_none, List.append_nil, List.append_nil]
    exact ⟨rfl, rfl, rfl, rfl, rfl⟩

/-- Settles O58: the updates applied so far are the first of those accepted, and each has been notified. -/
theorem snapshotInARunIsAPrefixOfApplies : Obligations.SnapshotInARunIsAPrefixOfApplies := by
  intro s t schedule hl hp hq hsched he hstim hfault
  have hrun := pipelineRun_of_execAll hp hq hsched he hstim hfault
  have hlive : t.live = true := hrun.live.trans hl
  cases hrun with
  | mk applied queue handover snap result haccepted =>
    refine ⟨applied.length, applyEach_note_length applied s, by simp [haccepted], ?_⟩
    rw [(snapshotCopiesTheGrid _ hlive).1, haccepted, List.append_assoc, List.take_left, ← applyEach_grid]
    rfl

end Sys2Proof.Machine
end

section
/-! Proofs about drops and ignores (60_exceptions.md): the event is all that is left of the frame. -/

namespace Sys2Proof.Machine

/-- Only an accepted frame can carry the resolution warning (60_exceptions.md R122). -/
theorem eventOf_of_not_ok {r : DecodeOutcome} (h : ∀ u, r ≠ .ok u) :
    eventOf r = { code := eventCode r, resWarn := false } := by
  cases r with
  | ok u => exact absurd rfl (h u)
  | tooShort | invalidFraming | checksumMismatch | notAddressedToUs => rfl

theorem phase_of_empty {s : State} (hnone : s.handover = none) (hp : s.pending = []) : phase s = .awaitStart := by
  simp [phase, hnone, hp]

/-- Settles O25: the byte completes the frame, and of a frame without an update only the event is left. -/
theorem dropAppendsOneEventOnly : Obligations.DropAppendsOneEventOnly := by
  rintro s i body h l r hl hnone hfault hw hb hp rfl hdrop
  have hframe : rxTake l s = takeFrame (STX :: (body ++ [ETX, h, l])) s := by
    rw [rxTake, hp, stepByte_trailer1 h l hb]
  rw [exec_of_one_byte hl ((rxReady_iff s).2 ⟨hnone, hfault⟩) hw, hframe, takeFrame_of_not_ok hdrop,
    eventOf_of_not_ok hdrop]
  exact ⟨rfl, phase_of_empty hnone rfl⟩

end Sys2Proof.Machine
end

section
/-! Proofs about reset and hazards (70_reset_and_hazards.md): an end marker inside a header (R143), and the time before the
first INIT (R140). -/

namespace Sys2Proof.Machine

/-! ### Frames cut short (R143) -/

/-- Where RX takes all of a first part of the bytes, the rest meets the state that part leaves. -/
theorem rxBytes_append {bs : List Byte} (rest : List Byte) {s : State} (h : (rxBytes bs s).stim = s.stim) :
    rxBytes (bs ++ rest) s = rxBytes rest (rxBytes bs s) := by
  induction bs generalizing s with
  | nil => rfl
  | cons b bs ih =>
    cases hr : rxReady s with
    | true =>
      rw [rxBytes_cons_ready b bs hr] at h ⊢
      rw [List.cons_append, rxBytes_cons_ready b _ hr, ih (by rw [h, rxTake_stim])]
    | false =>
      rw [rxBytes_cons_blocked b bs hr, offerAgain_stim_eq_iff] at h
      exact absurd h (List.cons_ne_nil b bs)

/-- Of a frame below the shortest length (41_decoder.md R82) one `TooShort` event is left. -/
theorem takeFrame_of_short {s : State} {fr : List Byte} (h : fr.length < minFrameLen) :
    takeFrame fr s =
      { s with pending := [], evt := s.evt ++ [{ code := .tooShort, resWarn := false }] } := by
  have hdecode : decodeFrame s.par.hexLowerOk s.cfg fr = .tooShort := decodeFrame_eq_tooShort_iff.2 h
  rw [takeFrame_of_not_ok (by simp [hdecode]), hdecode]
  rfl

section
variable {s : State} {body : List Byte} (hr : rxReady s = true) (hp : s.pending = []) (hb : ETX ∉ body)
  (hshort : body.length + 4 < minFrameLen)
include hr hp hb hshort

/-- A short frame at a ready and empty receiver leaves one `TooShort` event, and the rest is judged afresh. -/
theorem rxBytes_shortFrame (h l : Byte) (rest : List Byte)
    (hroom : exceedsCap s.par.pendingCap (body.length + 3) = false) :
    rxBytes (STX :: (body ++ [ETX, h, l]) ++ rest) s =
      rxBytes rest { s with evt := s.evt ++ [{ code := .tooShort, resWarn := false }] } := by
  have hframe : rxBytes (STX :: (body ++ [ETX, h, l])) s = { s with
      pending := [], evt := s.evt ++ [{ code := .tooShort, resWarn := false }] } :=
    (rxBytes_frame h l hr hp hb hroom).trans (takeFrame_of_short (by simpa using hshort))
  rw [rxBytes_append rest (by rw [hframe]), hframe, ← hp]

/-- The byte that completes a short frame leaves one `TooShort` event and an empty buffer. -/
theorem rxBytes_last_short (h l : Byte) :
    rxBytes [l] { s with pending := STX :: (body ++ [ETX, h]) } =
      { s with evt := s.evt ++ [{ code := .tooShort, resWarn := false }] } := by
  rw [rxBytes_last h l hr hb, ← takeFrame_of_not_held _ ((rxReady_iff s).1 hr).1,
    takeFrame_of_short (by simpa using hshort), ← hp]

end

/-- One byte at an empty and ready receiver: a start marker opens a frame, any other byte is garbage. -/
theorem rxBytes_one_empty {s : State} (b : Byte) (hr : rxReady s = true) (hp : s.pending = [])
    (hroom : exceedsCap s.par.pendingCap 1 = false) :
    rxBytes [b] s = { s with pending := if b = STX then [STX] else [] } := by
  rw [rxBytes_one_ready b hr]
  by_cases hb : b = STX
  · subst hb
    simp [rxTake, hp, stepByte_start, hroom]
  · rw [rxTake_garbage hp hb, if_neg hb, setPending_self hp]

theorem byteOf_zero_eq_iff (v : Half) (b : Byte) : byteOf 0 v = b ↔ v.toNat % 256 = b.toNat := by
  rw [← BitVec.toNat_inj, byteOf_toNat]
  simp

/-- Settles O30: the command or the address ends the body, so the next two bytes complete a frame below the shortest
length; after the 4-byte frame the last resolution byte meets an empty buffer. -/
theorem etxInHeaderCutsTheFrame : Obligations.EtxInHeaderCutsTheFrame := by
  intro s cmd addr res hl hnone hfault hp hroom
  have hr : rxReady s = true := (rxReady_iff s).2 ⟨hnone, hfault⟩
  have hroomAt {n : Nat} (hn : n ≤ 5) : exceedsCap s.par.pendingCap n = false := exceedsCap_mono hn hroom
  refine ⟨?_, fun hcmd => ?_⟩
  · rintro rfl
    have hcut := rxBytes_shortFrame hr hp List.not_mem_nil (by decide) addr (byteOf 1 res) [byteOf 0 res]
      (hroomAt (by decide))
    have hlast : rxBytes [byteOf 0 res] { s with evt := s.evt ++ [{ code := .tooShort, resWarn := false }] } = _ :=
      rxBytes_one_empty _ hr hp (hroomAt (by decide))
    refine (whenLive_of_live _ hl).trans (congrArg _ (hcut.trans (hlast.trans ?_)))
    simp [byteOf_zero_eq_iff, STX]
  · rintro rfl
    have hbody : ETX ∉ [cmd] := by simpa [ETX] using Ne.symm hcmd
    exact (whenLive_of_live _ hl).trans (congrArg _
      (rxBytes_shortFrame hr hp hbody (by simp [minFrameLen]) (byteOf 1 res) (byteOf 0 res) [] (hroomAt (by simp))))

/-- Settles O57: the header lies in the buffer with its end marker in the resolution, and what follows completes a frame below
the shortest length. -/
theorem etxInResolutionCutsTheFrame : Obligations.EtxInResolutionCutsTheFrame := by
  intro s cmd addr res x y hl hnone hfault hp hcmd haddr hroom
  have hr : rxReady s = true := (rxReady_iff s).2 ⟨hnone, hfault⟩
  have hbody : ETX ∉ [cmd, addr] := by simpa [ETX] using ⟨Ne.symm hcmd, Ne.symm haddr⟩
  obtain ⟨rh, rl, hres, hheader⟩ :=
    headerIsBuffered s cmd addr res hl hnone hfault hp hcmd haddr (exceedsCap_mono (by decide) hroom)
  have hlt : rl.toNat < 256 := rl.isLt
  have hrh : rh.toNat = res.toNat / 256 := by omega
  have hrl : rl.toNat = res.toNat % 256 := by omega
  refine ⟨fun hhigh => ?_, fun hhigh hlow => ?_⟩
  · obtain rfl : rh = ETX := BitVec.eq_of_toNat_eq (hrh.trans hhigh)
    have hlast := rxBytes_last_short hr hp hbody (by simp [minFrameLen]) rl x
    exact execAll_cons_eq_next.2
      ⟨_, hheader, execAll_cons_eq_next.2 ⟨_, whenLive_of_live _ hl, congrArg _ hlast⟩⟩
  · obtain rfl : rl = ETX := BitVec.eq_of_toNat_eq (hrl.trans hlow)
    have hne : rh ≠ ETX := fun h => hhigh (by rw [← hrh, h]; rfl)
    have hbody3 : ETX ∉ [cmd, addr] ++ [rh] := by simpa [hne.symm] using hbody
    have hfirst := rxBytes_cons_kept hr [y] (stepByte_trailer0 x hbody3) (by simpa using hroom)
    have hlast := rxBytes_last_short hr hp hbody3 (by simp [minFrameLen]) x y
    exact execAll_cons_eq_next.2
      ⟨_, hheader, execAll_cons_eq_next.2 ⟨_, whenLive_of_live _ hl, congrArg _ (hfirst.trans hlast)⟩⟩

/-! ### Before the first INIT (R140) -/

/-- Before the first INIT an operation on HFR's state is refused, SNAPRD before it looks for a snapshot. -/
theorem exec_beforeInit {s : State} {i : Instr} (hl : s.live = false) (hinit : isInit i = false)
    (hstate : readsNoState i = false) : exec i s = .refused .beforeInit := by
  cases i with
  | init rows columns address => cases hinit
  | hex07 | hex89 | hexUpA | hexUpBC | hexUpDE | hexUpF | hexLoA | hexLoBC | hexLoDE | hexLoF | notHex | hexvalFn
  | hexpairFn | cksumFn => cases hstate
  | snapRd r c => simp [exec, execSnapRd, hl]
  | _ => exact whenLive_beforeInit _ hl

/-- Settles O35: operation by operation; with an empty script the internal step is refused as they are. -/
theorem nothingHasAMeaningBeforeInit : Obligations.NothingHasAMeaningBeforeInit :=
  ⟨fun _ _ hl hinit hstate => exec_beforeInit hl hinit hstate,
    fun _ hl hstim => (if_pos hstim).trans (whenLive_beforeInit _ hl)⟩

end Sys2Proof.Machine
end

section
/-! Proofs about the script (43_dispatcher.md section 3; notes/assumptions/1.md, 4.md): the operation at its head runs, and
bytes that are none are refused. -/

namespace Sys2Proof.Machine

/-- Bytes on offer that are no operation stop the step before it looks at the receiver or at `live`. -/
theorem step_of_undecodable {s : State} {e : DecodeError} (hne : s.stim ≠ [])
    (h : decode s.par.hexLowerOk s.stim = .error e) : step s = .refused (.badStimulus e) := by
  rw [step, if_neg hne, fetch, h]

/-- Settles O1: one clause for each answer of `decode`. -/
theorem scriptOperationRuns : Obligations.ScriptOperationRuns :=
  ⟨fun _ _ _ => step_of_script, fun _ _ => step_of_undecodable⟩

end Sys2Proof.Machine
end
